-- ==== Sys2Proof/Word.lean ====
section
/-! DEFINITION. The word types of the xpc unit (00_scope.md R7, R8). -/

namespace Sys2Proof

/-- `bits64`: what a register, the program counter, a call-stack entry and a latch slot hold
(00_scope.md R7, R8). -/
abbrev Word := BitVec 64

/-- A byte of Memory or of the instruction stream (00_scope.md R8). -/
abbrev Byte := BitVec 8

/-- A legal register index, `r0` to `r15` (10_state.md R15, R16). -/
abbrev Reg := Fin 16

end Sys2Proof
end

