-- ==== Sys2Proof/Machine/Components.lean ====
section
/-! DEFINITION. The components State is made of, each as plain data (10_state.md, section 1). -/

namespace Sys2Proof.Machine

/-- Memory `M` (10_state.md R14): `len` bytes at addresses `0` to `len - 1`. `cells` lists the
bytes that are not 0, by rising address; an address below `len` that is not listed holds 0
(assumption log 11). -/
structure Memory where
  len : Nat
  cells : List Host.Cell
deriving DecidableEq, Repr, Inhabited

/-- The Register File: 16 words, `r0` to `r15` (10_state.md R15). -/
abbrev RegFile := Vector Word 16

/-- The status flag (10_state.md R22). -/
inductive Status where
  /-- The machine keeps stepping. -/
  | running
  /-- Terminal until reset. -/
  | halted
deriving DecidableEq, Repr, Inhabited

/-- The Comparison Latch: the operands of the most recent CMP (10_state.md R21). -/
structure CmpLatch where
  a : Word
  b : Word
deriving DecidableEq, Repr, Inhabited

/-- The identifier of a registered host callback (10_state.md R24). -/
abbrev Handler := Nat

/-- The Interrupt Table (10_state.md R24): the entries that are not empty, as pairs of an index
below 256 and a handler, by rising index. -/
abbrev InterruptTable := List (Nat × Handler)

/-- The eight faults (60_exceptions.md R103). -/
inductive FaultCode where
  | invalidOpcode
  | registerIndexOutOfRange
  | divideByZero
  | divideOverflow
  | stackUnderflow
  | memoryOutOfBounds
  | illegalMoveOperand
  | callStackOverflow
deriving DecidableEq, Repr

/-- The information value of a fault: a number, or the pair (address, width) of an access
(60_exceptions.md R103, column `info`). -/
inductive FaultInfo where
  | value (n : Nat)
  | access (addr width : Nat)
deriving DecidableEq, Repr

/-- What an instruction raises: a fault together with its information (60_exceptions.md R103). -/
inductive FaultCause where
  | invalidOpcode (op : Byte)
  | registerIndexOutOfRange (index : Byte)
  | divideByZero
  | divideOverflow
  | stackUnderflow
  | memoryOutOfBounds (addr width : Nat)
  | illegalMoveOperand (flags : Byte)
  | callStackOverflow (depth : Nat)
deriving DecidableEq, Repr

/-- The fault record when it is not `none`: the triple `(code, addr, info)` (10_state.md R23). -/
structure FaultRecord where
  code : FaultCode
  addr : Word
  info : FaultInfo
deriving DecidableEq, Repr

/-- A non-fatal condition a step reports to the host (60_exceptions.md R108). -/
inductive Signal where
  | deadEnd (pc : Word)
  | unhandledInterrupt (index : Byte)
deriving DecidableEq, Repr

/-- The outcome a step returns to the host (30_encoding.md R47). -/
inductive StepResult where
  | completed
  | deadEnd
  | faulted (code : FaultCode)
  | notRunning
deriving DecidableEq, Repr

/-- The part of the core state that an interrupt callback may write (43_system.md R99). -/
structure HostView where
  mem : Memory
  x : RegFile
  pc : Word
  cs : List Word
  cl : CmpLatch
  status : Status
  it : InterruptTable
deriving DecidableEq, Repr, Inhabited

end Sys2Proof.Machine
end

