-- ==== Sys2Proof/Machine/Integer.lean ====
section
/-! DEFINITION. The integer laws (41_arithmetic_logic.md R82; 00_scope.md R9, R10). Each result is
computed exactly on integers and narrowed at the end. -/

namespace Sys2Proof.Machine

/-- `sint(v)`: the two's-complement reading (00_scope.md R9; PRESUMED by the spec itself, its G1;
assumption log 14). -/
def sint (v : Word) : Int := v.toInt

/-- `wrap64(n)`: the word whose unsigned reading is `n mod 2^64` (00_scope.md R9). -/
def wrap64 (n : Int) : Word := BitVec.ofInt 64 n

/-- `trunc_q(a, b)`: the quotient rounded toward zero (00_scope.md R10, D5). -/
def truncQ (a b : Int) : Int := Int.tdiv a b

/-- ADD's value (R83). -/
def addWord (a b : Word) : Except FaultCause Word := .ok (wrap64 (sint a + sint b))

/-- SUB's value (R84). -/
def subWord (a b : Word) : Except FaultCause Word := .ok (wrap64 (sint a - sint b))

/-- MUL's value (R85). -/
def mulWord (a b : Word) : Except FaultCause Word := .ok (wrap64 (sint a * sint b))

/-- DIV's value, or its fault: the zero divisor is checked first (R86). -/
def divWord (a b : Word) : Except FaultCause Word :=
  if sint b = 0 then .error .divideByZero
  else if sint a = -2 ^ 63 ∧ sint b = -1 then .error .divideOverflow
  else .ok (wrap64 (truncQ (sint a) (sint b)))

/-- NOT's value: the exclusive or with all ones (R87). -/
def notWord (a : Word) : Word := a ^^^ 0xFFFFFFFFFFFFFFFF#64

end Sys2Proof.Machine
end

