-- ==== Sys2Proof/Config.lean ====
section
/-! DEFINITION. What the spec leaves to a machine instance (00_scope.md R7): the three parameters
that are data, and the meaning of interrupt callbacks, which is a free value. -/

namespace Sys2Proof

/-- `OPCODE_MAP` (30_encoding.md R53): the byte value of each instruction. The defaults are the
spec's default map (92_eei_decisions.md D1; assumption log 3). -/
structure OpcodeMap where
  nop : Byte := 0x00
  load1 : Byte := 0x01
  load2 : Byte := 0x02
  load3 : Byte := 0x03
  load4 : Byte := 0x04
  load5 : Byte := 0x05
  load6 : Byte := 0x06
  load7 : Byte := 0x07
  load8 : Byte := 0x08
  mov : Byte := 0x09
  add : Byte := 0x0A
  sub : Byte := 0x0B
  mul : Byte := 0x0C
  div : Byte := 0x0D
  not : Byte := 0x0E
  and : Byte := 0x0F
  or : Byte := 0x10
  xor : Byte := 0x11
  cmp : Byte := 0x12
  jmp : Byte := 0x13
  ret : Byte := 0x14
  hlt : Byte := 0x15
  int : Byte := 0x16
  cpuid : Byte := 0x17
deriving DecidableEq, Repr

/-- The parameters of a machine instance that are data (00_scope.md R7). No step writes them. -/
structure Config where
  /-- `OPCODE_MAP` (30_encoding.md R53). -/
  opcodeMap : OpcodeMap
  /-- `MEM_MAX`, the largest memory length (10_state.md R14). -/
  memMax : Nat
  /-- `CALL_DEPTH_MAX`: `none` is unbounded (10_state.md R20). -/
  callDepthMax : Option Nat
deriving DecidableEq, Repr

/-- The default map of 30_encoding.md R53. -/
def OpcodeMap.default : OpcodeMap := {}

/-- The parameters at `State.reset`: the spec's defaults for `OPCODE_MAP` (D1) and
`CALL_DEPTH_MAX` (D19). DESIGN CHOICE, unsafe where a claim leans on it: the spec fixes no default
for `MEM_MAX`; the largest value it admits stands here (assumption log 2). -/
def Config.default : Config where
  opcodeMap := OpcodeMap.default
  memMax := 2 ^ 64 - 1
  callDepthMax := none

/-- FREE VALUE (43_system.md R99, D18; assumption log 5): what callback `h`, called for index `i`
on a core state with the parts `view` and the fault record `fr`, leaves in the parts it may write.
`draw` numbers the free input `d` of that call. Nothing is known of it. -/
opaque Config.callback (h : Machine.Handler) (i : Byte) (view : Machine.HostView)
    (fr : Option Machine.FaultRecord) (draw : Nat) : Machine.HostView

end Sys2Proof
end

