-- ==== Sys2Proof/Machine/Bytes.lean ====
section
/-! DEFINITION. Byte order (00_scope.md R11, 20_memory.md R33). -/

namespace Sys2Proof.Machine

/-- `LE(b0, b1, …)`: the byte at the lowest address is the least significant (00_scope.md R11). -/
def leValue : List Byte → Nat
  | [] => 0
  | b :: bs => b.toNat + 256 * leValue bs

/-- The low `n` bytes of `v`, least significant first (20_memory.md R32). -/
def leBytes : Nat → Nat → List Byte
  | 0, _ => []
  | n + 1, v => BitVec.ofNat 8 v :: leBytes n (v / 256)

end Sys2Proof.Machine
end

