-- ==== Sys2Proof/Syntax.lean ====
section
/-! DEFINITION. The instructions of the xpc unit: one constructor of `Instr` per row of
spec/opcode_table.json (30_encoding.md R53, R54). -/

namespace Sys2Proof

/-- The 24 instructions an opcode byte can select, in the order of the catalogue
(30_encoding.md R53). -/
inductive Opcode where
  | nop | load1 | load2 | load3 | load4 | load5 | load6 | load7 | load8 | mov
  | add | sub | mul | div | not | and | or | xor | cmp
  | jmp | ret | hlt | int | cpuid
deriving DecidableEq, Repr

/-- Every opcode once, in catalogue order. -/
def Opcode.all : List Opcode :=
  [.nop, .load1, .load2, .load3, .load4, .load5, .load6, .load7, .load8, .mov,
   .add, .sub, .mul, .div, .not, .and, .or, .xor, .cmp,
   .jmp, .ret, .hlt, .int, .cpuid]

/-- The source operand of a Move (30_encoding.md R58). -/
inductive MovSrc where
  /-- Kind 00: a register, all 64 bits. -/
  | reg (s : Reg)
  /-- Kind 01: the memory at a `w`-byte address. -/
  | mem (addr : Word)
  /-- Kind 10: a `w`-byte literal. -/
  | const (k : Word)
deriving DecidableEq, Repr

/-- The destination operand of a Move (30_encoding.md R58): a constant is no destination. -/
inductive MovDst where
  /-- Kind 00: a register. -/
  | reg (d : Reg)
  /-- Kind 01: the memory at a `w`-byte address. -/
  | mem (addr : Word)
deriving DecidableEq, Repr

/-- The instructions. Operands stand in encoding order (30_encoding.md R54). -/
inductive Instr where
  /-- NOP (40_data_movement.md R65). -/
  | nop
  /-- LOAD1 `d`, `v` (R66). -/
  | load1 (d : Reg) (v : BitVec 8)
  /-- LOAD2 `d`, `v` (R67). -/
  | load2 (d : Reg) (v : BitVec 16)
  /-- LOAD3 `d`, `v` (R68). -/
  | load3 (d : Reg) (v : BitVec 24)
  /-- LOAD4 `d`, `v` (R69). -/
  | load4 (d : Reg) (v : BitVec 32)
  /-- LOAD5 `d`, `v` (R70). -/
  | load5 (d : Reg) (v : BitVec 40)
  /-- LOAD6 `d`, `v` (R71). -/
  | load6 (d : Reg) (v : BitVec 48)
  /-- LOAD7 `d`, `v` (R72). -/
  | load7 (d : Reg) (v : BitVec 56)
  /-- LOAD8 `d`, `v` (R73). -/
  | load8 (d : Reg) (v : BitVec 64)
  /-- MOV with the width field `w` of its flags byte (R74, 30_encoding.md R57). -/
  | mov (w : BitVec 4) (src : MovSrc) (dst : MovDst)
  /-- ADD: `x[c] <- x[a] + x[b]` (41_arithmetic_logic.md R83). -/
  | add (a b c : Reg)
  /-- SUB: `x[c] <- x[a] - x[b]` (R84). -/
  | sub (a b c : Reg)
  /-- MUL: `x[c] <- x[a] * x[b]` (R85). -/
  | mul (a b c : Reg)
  /-- DIV: `x[c] <- x[a] / x[b]` (R86). -/
  | div (a b c : Reg)
  /-- NOT: `x[a]` complemented (R87). -/
  | not (a : Reg)
  /-- AND: `x[a] <- x[a] AND x[b]` (R88). -/
  | and (a b : Reg)
  /-- OR: `x[a] <- x[a] OR x[b]` (R89). -/
  | or (a b : Reg)
  /-- XOR: `x[a] <- x[a] XOR x[b]` (R90). -/
  | xor (a b : Reg)
  /-- CMP: latch `x[a]` and `x[b]` (R91). -/
  | cmp (a b : Reg)
  /-- JMP to the absolute address `t`, pushing the return address (42_control_transfer.md R92). -/
  | jmp (t : Word)
  /-- RET (R93). -/
  | ret
  /-- HLT (R94). -/
  | hlt
  /-- INT with interrupt index `i` (43_system.md R98). -/
  | int (i : Byte)
  /-- CPUID, reserved (R100). -/
  | cpuid
deriving DecidableEq, Repr

/-- The opcode of an instruction (30_encoding.md R53). -/
def Instr.opcode : Instr → Opcode
  | .nop => .nop
  | .load1 _ _ => .load1
  | .load2 _ _ => .load2
  | .load3 _ _ => .load3
  | .load4 _ _ => .load4
  | .load5 _ _ => .load5
  | .load6 _ _ => .load6
  | .load7 _ _ => .load7
  | .load8 _ _ => .load8
  | .mov _ _ _ => .mov
  | .add _ _ _ => .add
  | .sub _ _ _ => .sub
  | .mul _ _ _ => .mul
  | .div _ _ _ => .div
  | .not _ => .not
  | .and _ _ => .and
  | .or _ _ => .or
  | .xor _ _ => .xor
  | .cmp _ _ => .cmp
  | .jmp _ => .jmp
  | .ret => .ret
  | .hlt => .hlt
  | .int _ => .int
  | .cpuid => .cpuid

end Sys2Proof
end

