-- ==== Sys2Proof/WellFormed.lean ====
section
/-! DEFINITION. When an instruction term has an encoding. Register indices, load values, jump
targets and interrupt indices are bounded by their types; only MOV needs a check
(30_encoding.md R57 to R60). -/

namespace Sys2Proof

/-- A `w`-byte field holds the values below `2^(8w)` (30_encoding.md R56, R59). -/
def fitsBytes (w : BitVec 4) (v : Word) : Bool := decide (v.toNat < 2 ^ (8 * w.toNat))

/-- The width is 1 to 8 (30_encoding.md R60). -/
def widthOk (w : BitVec 4) : Bool := decide (1 ≤ w.toNat ∧ w.toNat ≤ 8)

/-- A source operand whose address or literal fits in `w` bytes (30_encoding.md R58). -/
def MovSrc.wellFormed (w : BitVec 4) : MovSrc → Bool
  | .reg _ => true
  | .mem a => fitsBytes w a
  | .const k => fitsBytes w k

/-- A destination operand whose address fits in `w` bytes (30_encoding.md R58). -/
def MovDst.wellFormed (w : BitVec 4) : MovDst → Bool
  | .reg _ => true
  | .mem a => fitsBytes w a

/-- A legal Move: register to register with any width field, or any other pair of operands with a
width of 1 to 8 bytes that holds their addresses and literals (30_encoding.md R59, R60). -/
def movWellFormed (w : BitVec 4) (src : MovSrc) (dst : MovDst) : Bool :=
  match src, dst with
  | .reg _, .reg _ => true
  | src, dst => widthOk w && src.wellFormed w && dst.wellFormed w

/-- The instruction has an encoding (30_encoding.md R54 to R60). -/
def Instr.wellFormed : Instr → Bool
  | .mov w src dst => movWellFormed w src dst
  | .nop => true
  | .load1 _ _ => true
  | .load2 _ _ => true
  | .load3 _ _ => true
  | .load4 _ _ => true
  | .load5 _ _ => true
  | .load6 _ _ => true
  | .load7 _ _ => true
  | .load8 _ _ => true
  | .add _ _ _ => true
  | .sub _ _ _ => true
  | .mul _ _ _ => true
  | .div _ _ _ => true
  | .not _ => true
  | .and _ _ => true
  | .or _ _ => true
  | .xor _ _ => true
  | .cmp _ _ => true
  | .jmp _ => true
  | .ret => true
  | .hlt => true
  | .int _ => true
  | .cpuid => true

end Sys2Proof
end

