-- ==== Sys2Proof/Decode.lean ====
section
/-! DEFINITION. The decoder, total on any bytes and rejecting by name, and after it the encoder
(30_encoding.md R50 to R61). -/

namespace Sys2Proof

open Sys2Proof.Machine (leValue leBytes)

/-! ## The opcode map -/

/-- The byte value the map gives an instruction (30_encoding.md R53). -/
def OpcodeMap.byteOf (m : OpcodeMap) : Opcode → Byte
  | .nop => m.nop
  | .load1 => m.load1
  | .load2 => m.load2
  | .load3 => m.load3
  | .load4 => m.load4
  | .load5 => m.load5
  | .load6 => m.load6
  | .load7 => m.load7
  | .load8 => m.load8
  | .mov => m.mov
  | .add => m.add
  | .sub => m.sub
  | .mul => m.mul
  | .div => m.div
  | .not => m.not
  | .and => m.and
  | .or => m.or
  | .xor => m.xor
  | .cmp => m.cmp
  | .jmp => m.jmp
  | .ret => m.ret
  | .hlt => m.hlt
  | .int => m.int
  | .cpuid => m.cpuid

/-- The map is one-to-one, as every `OPCODE_MAP` is (30_encoding.md R53). -/
abbrev OpcodeMap.Injective (m : OpcodeMap) : Prop := (Opcode.all.map m.byteOf).Nodup

/-- `Decode(op)`: the instruction an opcode byte selects, if any (30_encoding.md R52). -/
def OpcodeMap.lookup (m : OpcodeMap) (op : Byte) : Option Opcode :=
  Opcode.all.find? (fun k => m.byteOf k == op)

/-! ## The Move flags byte -/

/-- `F[7:6]`, the destination kind (30_encoding.md R57). -/
def flagsDk (F : Byte) : BitVec 2 := F.extractLsb' 6 2

/-- `F[5:4]`, the source kind (30_encoding.md R57). -/
def flagsSk (F : Byte) : BitVec 2 := F.extractLsb' 4 2

/-- `F[3:0]`, the width in bytes (30_encoding.md R57). -/
def flagsWidth (F : Byte) : BitVec 4 := F.extractLsb' 0 4

/-- `legal_flags(F)` (30_encoding.md R60). -/
def legalFlags (F : Byte) : Bool :=
  (flagsDk F == 0b00#2 || flagsDk F == 0b01#2)
    && (flagsSk F == 0b00#2 || flagsSk F == 0b01#2 || flagsSk F == 0b10#2)
    && ((flagsDk F == 0b00#2 && flagsSk F == 0b00#2) || widthOk (flagsWidth F))

/-! ## The decoder -/

/-- Why bytes are no instruction. An offset counts from the opcode byte. -/
inductive DecodeError where
  /-- No instruction has this opcode byte (30_encoding.md R52). -/
  | invalidOpcode (op : Byte)
  /-- A register-index byte is 16 to 255 (30_encoding.md R51). -/
  | registerIndexOutOfRange (index : Byte)
  /-- A flags byte that `legal_flags` rejects (30_encoding.md R60). -/
  | illegalMoveOperand (flags : Byte)
  /-- Fewer than `n` bytes remain at offset `off` (30_encoding.md R50). -/
  | truncated (off n : Nat)
deriving DecidableEq, Repr

/-- The rest of an instruction's bytes and the offset of the first of them. -/
structure Cursor where
  off : Nat
  rest : List Byte
deriving DecidableEq, Repr

/-- `Fetch(n)`: the next `n` bytes as a little-endian value (30_encoding.md R50). -/
def fetch (n : Nat) (c : Cursor) : Except DecodeError (Nat × Cursor) :=
  if n ≤ c.rest.length then
    .ok (leValue (c.rest.take n), { off := c.off + n, rest := c.rest.drop n })
  else
    .error (.truncated c.off n)

/-- `FetchReg()`: a register-index byte, checked as it is fetched (30_encoding.md R51). -/
def fetchReg (c : Cursor) : Except DecodeError (Reg × Cursor) := do
  let (r, c) ← fetch 1 c
  if h : r < 16 then .ok (⟨r, h⟩, c) else .error (.registerIndexOutOfRange (BitVec.ofNat 8 r))

/-- Format FL: a register, then an `n`-byte value (30_encoding.md R54). -/
def decodeLoad (n : Nat) (mk : Reg → Nat → Instr) (c : Cursor) :
    Except DecodeError (Instr × Cursor) := do
  let (d, c) ← fetchReg c
  let (v, c) ← fetch n c
  .ok (mk d v, c)

/-- Format F3: three registers (30_encoding.md R54). -/
def decodeReg3 (mk : Reg → Reg → Reg → Instr) (c : Cursor) :
    Except DecodeError (Instr × Cursor) := do
  let (a, c) ← fetchReg c
  let (b, c) ← fetchReg c
  let (d, c) ← fetchReg c
  .ok (mk a b d, c)

/-- Format F2: two registers (30_encoding.md R54). -/
def decodeReg2 (mk : Reg → Reg → Instr) (c : Cursor) :
    Except DecodeError (Instr × Cursor) := do
  let (a, c) ← fetchReg c
  let (b, c) ← fetchReg c
  .ok (mk a b, c)

/-- Format F1: one register (30_encoding.md R54). -/
def decodeReg1 (mk : Reg → Instr) (c : Cursor) : Except DecodeError (Instr × Cursor) := do
  let (a, c) ← fetchReg c
  .ok (mk a, c)

/-- A Move's source operand, of the kind and width its flags byte gives (30_encoding.md R58). -/
def decodeSrc (F : Byte) (c : Cursor) : Except DecodeError (MovSrc × Cursor) :=
  if flagsSk F = 0b00#2 then do
    let (s, c) ← fetchReg c
    .ok (.reg s, c)
  else if flagsSk F = 0b01#2 then do
    let (a, c) ← fetch (flagsWidth F).toNat c
    .ok (.mem (BitVec.ofNat 64 a), c)
  else if flagsSk F = 0b10#2 then do
    let (k, c) ← fetch (flagsWidth F).toNat c
    .ok (.const (BitVec.ofNat 64 k), c)
  else .error (.illegalMoveOperand F)

/-- A Move's destination operand (30_encoding.md R58). -/
def decodeDst (F : Byte) (c : Cursor) : Except DecodeError (MovDst × Cursor) :=
  if flagsDk F = 0b00#2 then do
    let (d, c) ← fetchReg c
    .ok (.reg d, c)
  else if flagsDk F = 0b01#2 then do
    let (a, c) ← fetch (flagsWidth F).toNat c
    .ok (.mem (BitVec.ofNat 64 a), c)
  else .error (.illegalMoveOperand F)

/-- Format FM: the flags byte, checked before any operand byte; then the source operand; then the
destination operand (30_encoding.md R57 to R60). -/
def decodeMov (c : Cursor) : Except DecodeError (Instr × Cursor) := do
  let (f, c) ← fetch 1 c
  let F := BitVec.ofNat 8 f
  if legalFlags F then do
    let (src, c) ← decodeSrc F c
    let (dst, c) ← decodeDst F c
    .ok (.mov (flagsWidth F) src dst, c)
  else .error (.illegalMoveOperand F)

/-- The operands of each instruction, in encoding order (30_encoding.md R54). -/
def decodeOperands : Opcode → Cursor → Except DecodeError (Instr × Cursor)
  | .nop, c => .ok (.nop, c)
  | .load1, c => decodeLoad 1 (fun d v => .load1 d (BitVec.ofNat 8 v)) c
  | .load2, c => decodeLoad 2 (fun d v => .load2 d (BitVec.ofNat 16 v)) c
  | .load3, c => decodeLoad 3 (fun d v => .load3 d (BitVec.ofNat 24 v)) c
  | .load4, c => decodeLoad 4 (fun d v => .load4 d (BitVec.ofNat 32 v)) c
  | .load5, c => decodeLoad 5 (fun d v => .load5 d (BitVec.ofNat 40 v)) c
  | .load6, c => decodeLoad 6 (fun d v => .load6 d (BitVec.ofNat 48 v)) c
  | .load7, c => decodeLoad 7 (fun d v => .load7 d (BitVec.ofNat 56 v)) c
  | .load8, c => decodeLoad 8 (fun d v => .load8 d (BitVec.ofNat 64 v)) c
  | .mov, c => decodeMov c
  | .add, c => decodeReg3 .add c
  | .sub, c => decodeReg3 .sub c
  | .mul, c => decodeReg3 .mul c
  | .div, c => decodeReg3 .div c
  | .not, c => decodeReg1 .not c
  | .and, c => decodeReg2 .and c
  | .or, c => decodeReg2 .or c
  | .xor, c => decodeReg2 .xor c
  | .cmp, c => decodeReg2 .cmp c
  | .jmp, c => do
      let (t, c) ← fetch 8 c
      .ok (.jmp (BitVec.ofNat 64 t), c)
  | .ret, c => .ok (.ret, c)
  | .hlt, c => .ok (.hlt, c)
  | .int, c => do
      let (i, c) ← fetch 1 c
      .ok (.int (BitVec.ofNat 8 i), c)
  | .cpuid, c => .ok (.cpuid, c)

/-- One instruction from the front of a byte sequence, with the bytes after it
(30_encoding.md R46, R47, R52). -/
def decode (m : OpcodeMap) : List Byte → Except DecodeError (Instr × List Byte)
  | [] => .error (.truncated 0 1)
  | op :: rest =>
    match m.lookup op with
    | none => .error (.invalidOpcode op)
    | some k =>
      match decodeOperands k { off := 1, rest := rest } with
      | .ok (i, c) => .ok (i, c.rest)
      | .error e => .error e

/-! ## The encoder -/

/-- A register operand's byte (30_encoding.md R55). -/
def encodeReg (r : Reg) : Byte := BitVec.ofNat 8 r.val

/-- The source kind (30_encoding.md R58). -/
def MovSrc.kind : MovSrc → BitVec 2
  | .reg _ => 0b00
  | .mem _ => 0b01
  | .const _ => 0b10

/-- The destination kind (30_encoding.md R58). -/
def MovDst.kind : MovDst → BitVec 2
  | .reg _ => 0b00
  | .mem _ => 0b01

/-- The flags byte of a Move: `dk` in bits 7 and 6, `sk` in bits 5 and 4, `w` in bits 3 to 0
(30_encoding.md R57). -/
def moveFlags (w : BitVec 4) (src : MovSrc) (dst : MovDst) : Byte := dst.kind ++ src.kind ++ w

/-- The bytes of a source operand (30_encoding.md R58). -/
def MovSrc.encode (w : BitVec 4) : MovSrc → List Byte
  | .reg s => [encodeReg s]
  | .mem a => leBytes w.toNat a.toNat
  | .const k => leBytes w.toNat k.toNat

/-- The bytes of a destination operand (30_encoding.md R58). -/
def MovDst.encode (w : BitVec 4) : MovDst → List Byte
  | .reg d => [encodeReg d]
  | .mem a => leBytes w.toNat a.toNat

/-- The operand bytes of an instruction, in order (30_encoding.md R54). -/
def Instr.operandBytes : Instr → List Byte
  | .nop => []
  | .load1 d v => encodeReg d :: leBytes 1 v.toNat
  | .load2 d v => encodeReg d :: leBytes 2 v.toNat
  | .load3 d v => encodeReg d :: leBytes 3 v.toNat
  | .load4 d v => encodeReg d :: leBytes 4 v.toNat
  | .load5 d v => encodeReg d :: leBytes 5 v.toNat
  | .load6 d v => encodeReg d :: leBytes 6 v.toNat
  | .load7 d v => encodeReg d :: leBytes 7 v.toNat
  | .load8 d v => encodeReg d :: leBytes 8 v.toNat
  | .mov w src dst => moveFlags w src dst :: (src.encode w ++ dst.encode w)
  | .add a b c => [encodeReg a, encodeReg b, encodeReg c]
  | .sub a b c => [encodeReg a, encodeReg b, encodeReg c]
  | .mul a b c => [encodeReg a, encodeReg b, encodeReg c]
  | .div a b c => [encodeReg a, encodeReg b, encodeReg c]
  | .not a => [encodeReg a]
  | .and a b => [encodeReg a, encodeReg b]
  | .or a b => [encodeReg a, encodeReg b]
  | .xor a b => [encodeReg a, encodeReg b]
  | .cmp a b => [encodeReg a, encodeReg b]
  | .jmp t => leBytes 8 t.toNat
  | .ret => []
  | .hlt => []
  | .int i => [i]
  | .cpuid => []

/-- The bytes of an instruction (30_encoding.md R46, R54). -/
def encode (m : OpcodeMap) (i : Instr) : List Byte := m.byteOf i.opcode :: i.operandBytes

/-- `len(sk)` (30_encoding.md R59). -/
def MovSrc.length (w : BitVec 4) : MovSrc → Nat
  | .reg _ => 1
  | .mem _ => w.toNat
  | .const _ => w.toNat

/-- `len(dk)` (30_encoding.md R59). -/
def MovDst.length (w : BitVec 4) : MovDst → Nat
  | .reg _ => 1
  | .mem _ => w.toNat

/-- The length of a Move in bytes (30_encoding.md R59). -/
def moveLength (w : BitVec 4) (src : MovSrc) (dst : MovDst) : Nat :=
  2 + src.length w + dst.length w

/-- The length of an instruction in bytes: the Length column of 30_encoding.md R53. -/
def Instr.length : Instr → Nat
  | .nop => 1
  | .load1 _ _ => 3
  | .load2 _ _ => 4
  | .load3 _ _ => 5
  | .load4 _ _ => 6
  | .load5 _ _ => 7
  | .load6 _ _ => 8
  | .load7 _ _ => 9
  | .load8 _ _ => 10
  | .mov w src dst => moveLength w src dst
  | .add _ _ _ => 4
  | .sub _ _ _ => 4
  | .mul _ _ _ => 4
  | .div _ _ _ => 4
  | .not _ => 2
  | .and _ _ => 3
  | .or _ _ => 3
  | .xor _ _ => 3
  | .cmp _ _ => 3
  | .jmp _ => 9
  | .ret => 1
  | .hlt => 1
  | .int _ => 2
  | .cpuid => 1

/-- The longest instruction: a Move of two 8-byte operands (30_encoding.md R59). -/
def maxInstrLength : Nat := 18

/-! ## One instruction as a number -/

/-- The bytes of an instruction whose bits are `w`, the first byte in bits 7 to 0, every bit from
`nbits` up being 0, as far as the longest instruction reaches. -/
def wordBytes (nbits w : Nat) : List Byte := leBytes maxInstrLength (w % 2 ^ nbits)

/-- What the decoder reads, under the default opcode map, from an instruction whose bits are `w`. -/
def decodeTableWord (nbits w : Nat) : Option Instr :=
  match decode OpcodeMap.default (wordBytes nbits w) with
  | .ok (i, _) => some i
  | .error _ => none

end Sys2Proof
end

