-- ==== Sys2Proof/Machine/State.lean ====
section
/-! DEFINITION. The machine's state, and why a step could stop (10_state.md). -/

namespace Sys2Proof.Machine

/-- The state. The first eight fields are the spec's components (10_state.md, section 1); `cfg` holds
the instance's parameters; the last four are the model's own. -/
structure State where
  /-- Memory `M` (R14). -/
  mem : Memory
  /-- The Register File (R15). -/
  x : RegFile
  /-- The program counter (R18). When `exec` runs, it is the address of the instruction's opcode
  byte, the spec's `start` (assumption log 10). -/
  pc : Word
  /-- The Call Stack, bottom first: the last entry is the top (R20). -/
  cs : List Word
  /-- The Comparison Latch (R21). -/
  cl : CmpLatch
  /-- The status flag (R22). -/
  status : Status
  /-- The fault record (R23). -/
  fr : Option FaultRecord
  /-- The Interrupt Table (R24). -/
  it : InterruptTable
  /-- The parameters (00_scope.md R7); no step writes them (assumption log 1). -/
  cfg : Config
  /-- MODEL'S OWN: the outcome the last step returned (30_encoding.md R47; assumption log 7). -/
  result : Option StepResult
  /-- MODEL'S OWN: the signals the last step returned (60_exceptions.md R108; log 7). -/
  signals : List Signal
  /-- MODEL'S OWN: the loading phase, when the host may Append (20_memory.md R38; log 8). -/
  loading : Bool
  /-- MODEL'S OWN: the number of the next free draw `d` of a callback (43_system.md R99; log 6). -/
  draws : Nat
deriving DecidableEq, Repr

/-- Why a step could end in a fault of the interface: never. Every fault of the spec leaves a next
state (60_exceptions.md R104), so this type is empty (assumption log 9). -/
inductive Fault : Type
deriving DecidableEq, Repr

/-- Why a step could be refused. No step of this model is: every instruction has a meaning. -/
inductive Refusal where
  /-- Raised by an arm of `exec` for an instruction that has no meaning yet; no arm does. Safe. -/
  | notModelled (mnemonic : String)
deriving DecidableEq, Repr

/-- The machine after Construct, which is also its state after a Reset before anything was appended
or registered (70_reset_and_hazards.md R119, R120; assumption log 13). `cfg.memMax` and `draws` are
DESIGN CHOICES (logs 2 and 6). -/
def State.reset : State where
  mem := { len := 0, cells := [] }
  x := Vector.replicate 16 0
  pc := 0
  cs := []
  cl := { a := 0, b := 0 }
  status := .running
  fr := none
  it := []
  cfg := Config.default
  result := none
  signals := []
  loading := true
  draws := 0

end Sys2Proof.Machine
end

