-- ==== Sys2Proof/Machine/Flags.lean ====
section
/-! DEFINITION. The unit has no condition codes and no instruction writes a flag as a side effect
(10_state.md R25). Its only one-bit state is `status` and its only comparison state is the latch;
this file holds the operations that write them. -/

namespace Sys2Proof.Machine

/-- `status <- Halted` (10_state.md R22). -/
def State.halt (s : State) : State := { s with status := .halted }

/-- `CL.a <- v; CL.b <- w` (10_state.md R21). No ordering relation is derived. -/
def State.latch (v w : Word) (s : State) : State := { s with cl := { a := v, b := w } }

end Sys2Proof.Machine
end

