-- ==== Sys2Proof/Machine/Sparse.lean ====
section
/-! DEFINITION. Lists of (key, value) pairs in one canonical form, keys strictly rising: what Memory's
cells and the Interrupt Table are held in (assumption log 11). -/

namespace Sys2Proof.Machine

/-- The value listed for a key. -/
def sparseFind {α : Type} (k : Nat) : List (Nat × α) → Option α
  | [] => none
  | (j, v) :: l => if j = k then some v else sparseFind k l

/-- List a value for a key, in place of any value it had. -/
def sparsePut {α : Type} (k : Nat) (v : α) : List (Nat × α) → List (Nat × α)
  | [] => [(k, v)]
  | (j, u) :: l =>
    if k < j then (k, v) :: (j, u) :: l
    else if k = j then (k, v) :: l
    else (j, u) :: sparsePut k v l

/-- List no value for a key. -/
def sparseErase {α : Type} (k : Nat) (l : List (Nat × α)) : List (Nat × α) :=
  l.filter (fun c => c.1 != k)

/-- Keys strictly rising. -/
abbrev SparseSorted {α : Type} (l : List (Nat × α)) : Prop := l.Pairwise (fun c d => c.1 < d.1)

end Sys2Proof.Machine
end

