-- ==== Sys2Proof/Machine/Ops.lean ====
section
/-! DEFINITION. The named operations over memory, registers, the program counter and the Call Stack,
and the one operation that takes a fault. There is no return from a fault (60_exceptions.md R107):
the way out is the host's Reset, in Machine/HostInterface.lean. -/

namespace Sys2Proof.Machine

/-! ## Memory -/

/-- The byte at an address: what the cells list, and 0 where they list nothing. It is a byte of the
machine only below `len` (20_memory.md R29). -/
def Memory.byte (m : Memory) (a : Nat) : Byte := (sparseFind a m.cells).getD 0#8

/-- Memory in canonical form: addresses strictly rising, no listed 0, nothing at or past `len`. -/
abbrev Memory.wf (m : Memory) : Prop :=
  SparseSorted m.cells ∧ ∀ c ∈ m.cells, c.2 ≠ 0#8 ∧ c.1 < m.len

/-- `M[a] <- b`, keeping the canonical form. -/
def Memory.setByte (m : Memory) (a : Nat) (b : Byte) : Memory :=
  { m with cells := if b = 0#8 then sparseErase a m.cells else sparsePut a b m.cells }

/-- The `n` bytes from address `a` up. -/
def Memory.bytes (m : Memory) (a : Nat) : Nat → List Byte
  | 0 => []
  | n + 1 => m.byte a :: m.bytes (a + 1) n

/-- Write bytes from address `a` up. -/
def Memory.writeBytes (m : Memory) (a : Nat) : List Byte → Memory
  | [] => m
  | b :: bs => (m.setByte a b).writeBytes (a + 1) bs

/-- Grow Memory by one byte at its end (20_memory.md R38). -/
def Memory.append (m : Memory) (b : Byte) : Memory :=
  { m with len := m.len + 1 }.setByte m.len b

/-- An access of `n` bytes at `a` is in bounds, on unbounded naturals (20_memory.md R30). -/
abbrev Memory.InBounds (m : Memory) (a n : Nat) : Prop := a + n ≤ m.len

/-- `MemRead(a, n)` (20_memory.md R31). -/
def Memory.read (m : Memory) (a n : Nat) : Except FaultCause Word :=
  if m.InBounds a n then .ok (BitVec.ofNat 64 (leValue (m.bytes a n)))
  else .error (.memoryOutOfBounds a n)

/-- `MemWrite(a, n, v)`: the low `n` bytes of `v` (20_memory.md R32). -/
def Memory.write (m : Memory) (a n : Nat) (v : Word) : Except FaultCause Memory :=
  if m.InBounds a n then .ok (m.writeBytes a (leBytes n v.toNat))
  else .error (.memoryOutOfBounds a n)

/-! ## Registers and the program counter -/

/-- `x[r]` (10_state.md R15). -/
def State.reg (s : State) (r : Reg) : Word := s.x.get r

/-- `x[r] <- v`: the whole word; no register is hardwired (10_state.md R15). -/
def State.setReg (r : Reg) (v : Word) (s : State) : State := { s with x := s.x.set r v }

/-- Move the program counter past `n` bytes of the instruction (10_state.md R18). -/
def State.advance (n : Nat) (s : State) : State := { s with pc := s.pc + BitVec.ofNat 64 n }

/-- `pc <- target` (10_state.md R18, R19): any target is accepted. -/
def State.jump (target : Word) (s : State) : State := { s with pc := target }

/-! ## The Call Stack -/

/-- `Push(v)` (10_state.md R20). -/
def State.push (v : Word) (s : State) : Except FaultCause State :=
  match s.cfg.callDepthMax with
  | none => .ok { s with cs := s.cs ++ [v] }
  | some n =>
    if s.cs.length = n then .error (.callStackOverflow n)
    else .ok { s with cs := s.cs ++ [v] }

/-- `Pop()`: the top value, and the state without it (10_state.md R20). -/
def State.pop (s : State) : Except FaultCause (Word × State) :=
  match s.cs.getLast? with
  | none => .error .stackUnderflow
  | some v => .ok (v, { s with cs := s.cs.dropLast })

/-! ## Signals -/

/-- `signal S(info)` (60_exceptions.md R108). -/
def State.signal (g : Signal) (s : State) : State := { s with signals := s.signals ++ [g] }

/-! ## Taking a fault -/

/-- `code(F)` (60_exceptions.md R103). -/
def FaultCause.code : FaultCause → FaultCode
  | .invalidOpcode _ => .invalidOpcode
  | .registerIndexOutOfRange _ => .registerIndexOutOfRange
  | .divideByZero => .divideByZero
  | .divideOverflow => .divideOverflow
  | .stackUnderflow => .stackUnderflow
  | .memoryOutOfBounds _ _ => .memoryOutOfBounds
  | .illegalMoveOperand _ => .illegalMoveOperand
  | .callStackOverflow _ => .callStackOverflow

/-- The number of a fault code; 0 is not used (60_exceptions.md R103, column Code). -/
def FaultCode.number : FaultCode → Nat
  | .invalidOpcode => 1
  | .registerIndexOutOfRange => 2
  | .divideByZero => 3
  | .divideOverflow => 4
  | .stackUnderflow => 5
  | .memoryOutOfBounds => 6
  | .illegalMoveOperand => 7
  | .callStackOverflow => 8

/-- The information recorded (60_exceptions.md R103, column `info`). -/
def FaultCause.info : FaultCause → FaultInfo
  | .invalidOpcode op => .value op.toNat
  | .registerIndexOutOfRange b => .value b.toNat
  | .divideByZero => .value 0
  | .divideOverflow => .value 0
  | .stackUnderflow => .value 0
  | .memoryOutOfBounds a n => .access a n
  | .illegalMoveOperand F => .value F.toNat
  | .callStackOverflow n => .value n

/-- The triple a fault at `start` records (10_state.md R23). -/
def FaultCause.record (start : Word) (c : FaultCause) : FaultRecord :=
  { code := c.code, addr := start, info := c.info }

/-- `raise F(info)` by the instruction at `start` (60_exceptions.md R104): the program counter goes
back to `start`, the machine halts, the fault is recorded and the step returns `Faulted`. Nothing
else changes. -/
def State.raise (start : Word) (c : FaultCause) (s : State) : State :=
  { s with pc := start, status := .halted, fr := some (c.record start),
           result := some (.faulted c.code) }

/-- How an instruction ends that began in `s`: with the state it made, or in the fault it raised. Its
partial effects are dropped with the fault, since every check precedes the first write
(60_exceptions.md R104, R105). -/
def State.settle (s : State) : Except FaultCause State → Host.Outcome State Fault Refusal
  | .ok s' => .next s'
  | .error c => .next (s.raise s.pc c)

end Sys2Proof.Machine
end

