-- ==== Sys2Proof/Machine/Operands.lean ====
section
/-! DEFINITION. The operand forms: what a Move's operands read and write, and the shapes the other
formats share (30_encoding.md R54 to R59). -/

namespace Sys2Proof.Machine

/-- The value of a Move's source of width `w` (30_encoding.md R58). -/
def readSrc (w : Nat) (src : MovSrc) (s : State) : Except FaultCause Word :=
  match src with
  | .reg r => .ok (s.reg r)
  | .mem a => s.mem.read a.toNat w
  | .const k => .ok k

/-- Write a Move's destination of width `w` (30_encoding.md R58). -/
def writeDst (w : Nat) (dst : MovDst) (v : Word) (s : State) : Except FaultCause State :=
  match dst with
  | .reg r => .ok (s.setReg r v)
  | .mem a =>
    match s.mem.write a.toNat w v with
    | .ok m => .ok { s with mem := m }
    | .error c => .error c

/-- Format FL: write the zero-extended `n`-byte value to a register (40_data_movement.md R66 to
R73). -/
def State.loadValue (n : Nat) (d : Reg) (v : Word) (s : State) : State :=
  (s.setReg d v).advance (n + 2)

/-- Format F3: `x[c] <- f x[a] x[b]`, or the fault of `f` (41_arithmetic_logic.md R83 to R86). -/
def State.arith3 (f : Word → Word → Except FaultCause Word) (a b c : Reg) (s : State) :
    Host.Outcome State Fault Refusal :=
  s.settle (match f (s.reg a) (s.reg b) with
    | .ok v => .ok ((s.setReg c v).advance 4)
    | .error e => .error e)

/-- Format F2 with the first register as destination: `x[a] <- f x[a] x[b]`
(41_arithmetic_logic.md R88 to R90). -/
def State.logic2 (f : Word → Word → Word) (a b : Reg) (s : State) : State :=
  (s.setReg a (f (s.reg a) (s.reg b))).advance 3

end Sys2Proof.Machine
end

