-- ==== Sys2Proof/Machine/ArithmeticLogic.lean ====
section
/-! DEFINITION. ADD, SUB, MUL, DIV, NOT, AND, OR, XOR and CMP (41_arithmetic_logic.md). -/

namespace Sys2Proof.Machine

/-- ADD (R83). -/
def execAdd (a b c : Reg) (s : State) : Host.Outcome State Fault Refusal := s.arith3 addWord a b c

/-- SUB (R84). -/
def execSub (a b c : Reg) (s : State) : Host.Outcome State Fault Refusal := s.arith3 subWord a b c

/-- MUL (R85). -/
def execMul (a b c : Reg) (s : State) : Host.Outcome State Fault Refusal := s.arith3 mulWord a b c

/-- DIV (R86). -/
def execDiv (a b c : Reg) (s : State) : Host.Outcome State Fault Refusal := s.arith3 divWord a b c

/-- NOT (R87). -/
def execNot (a : Reg) (s : State) : Host.Outcome State Fault Refusal :=
  .next ((s.setReg a (notWord (s.reg a))).advance 2)

/-- AND (R88). -/
def execAnd (a b : Reg) (s : State) : Host.Outcome State Fault Refusal :=
  .next (s.logic2 (fun v w => v &&& w) a b)

/-- OR (R89). -/
def execOr (a b : Reg) (s : State) : Host.Outcome State Fault Refusal :=
  .next (s.logic2 (fun v w => v ||| w) a b)

/-- XOR (R90). -/
def execXor (a b : Reg) (s : State) : Host.Outcome State Fault Refusal :=
  .next (s.logic2 (fun v w => v ^^^ w) a b)

/-- CMP: the latch holds the register values (R91, D3). -/
def execCmp (a b : Reg) (s : State) : Host.Outcome State Fault Refusal :=
  .next ((s.latch (s.reg a) (s.reg b)).advance 3)

end Sys2Proof.Machine
end

