-- ==== Sys2Proof/Machine/ControlTransfer.lean ====
section
/-! DEFINITION. JMP, RET and HLT (42_control_transfer.md). -/

namespace Sys2Proof.Machine

/-- JMP: push the address of the byte after the operand, then go to the target (R92). -/
def execJmp (t : Word) (s : State) : Host.Outcome State Fault Refusal :=
  s.settle (match (s.advance 9).push (s.advance 9).pc with
    | .ok s' => .ok (s'.jump t)
    | .error c => .error c)

/-- RET: pop the Call Stack into the program counter (R93). -/
def execRet (s : State) : Host.Outcome State Fault Refusal :=
  s.settle (match (s.advance 1).pop with
    | .ok (v, s') => .ok (s'.jump v)
    | .error c => .error c)

/-- HLT: the program counter stays past the opcode (R94). -/
def execHlt (s : State) : Host.Outcome State Fault Refusal := .next (s.advance 1).halt

end Sys2Proof.Machine
end

