-- ==== Sys2Proof/Machine/DataMovement.lean ====
section
/-! DEFINITION. NOP, LOAD1 to LOAD8 and MOV (40_data_movement.md). A meaning runs with `pc` at the
instruction's opcode byte, its operands decoded. -/

namespace Sys2Proof.Machine

/-- NOP (R65). -/
def execNop (s : State) : Host.Outcome State Fault Refusal := .next (s.advance 1)

/-- LOAD1 (R66). -/
def execLoad1 (d : Reg) (v : BitVec 8) (s : State) : Host.Outcome State Fault Refusal :=
  .next (s.loadValue 1 d (v.setWidth 64))

/-- LOAD2 (R67). -/
def execLoad2 (d : Reg) (v : BitVec 16) (s : State) : Host.Outcome State Fault Refusal :=
  .next (s.loadValue 2 d (v.setWidth 64))

/-- LOAD3 (R68). -/
def execLoad3 (d : Reg) (v : BitVec 24) (s : State) : Host.Outcome State Fault Refusal :=
  .next (s.loadValue 3 d (v.setWidth 64))

/-- LOAD4 (R69). -/
def execLoad4 (d : Reg) (v : BitVec 32) (s : State) : Host.Outcome State Fault Refusal :=
  .next (s.loadValue 4 d (v.setWidth 64))

/-- LOAD5 (R70). -/
def execLoad5 (d : Reg) (v : BitVec 40) (s : State) : Host.Outcome State Fault Refusal :=
  .next (s.loadValue 5 d (v.setWidth 64))

/-- LOAD6 (R71). -/
def execLoad6 (d : Reg) (v : BitVec 48) (s : State) : Host.Outcome State Fault Refusal :=
  .next (s.loadValue 6 d (v.setWidth 64))

/-- LOAD7 (R72). -/
def execLoad7 (d : Reg) (v : BitVec 56) (s : State) : Host.Outcome State Fault Refusal :=
  .next (s.loadValue 7 d (v.setWidth 64))

/-- LOAD8 (R73). -/
def execLoad8 (d : Reg) (v : BitVec 64) (s : State) : Host.Outcome State Fault Refusal :=
  .next (s.loadValue 8 d (v.setWidth 64))

/-- MOV (R74 to R81): the flags byte must be legal; then the whole source value is read; then the
destination is written. -/
def execMov (w : BitVec 4) (src : MovSrc) (dst : MovDst) (s : State) :
    Host.Outcome State Fault Refusal :=
  s.settle (if legalFlags (moveFlags w src dst) then
      match readSrc w.toNat src s with
      | .ok v =>
        match writeDst w.toNat dst v s with
        | .ok s' => .ok (s'.advance (moveLength w src dst))
        | .error c => .error c
      | .error c => .error c
    else .error (.illegalMoveOperand (moveFlags w src dst)))

end Sys2Proof.Machine
end

