-- ==== Sys2Proof/Machine/Interrupt.lean ====
section
/-! DEFINITION. The Interrupt Table and the callback contract (10_state.md R24; 43_system.md R99;
60_exceptions.md R111). -/

namespace Sys2Proof.Machine

/-- `IT[i]` (10_state.md R24). -/
def State.handler (s : State) (i : Byte) : Option Handler := sparseFind i.toNat s.it

/-- The table's canonical form: indices strictly rising and below 256. -/
abbrev InterruptTableWf (it : InterruptTable) : Prop :=
  SparseSorted it ∧ ∀ e ∈ it, e.1 < 256

/-- At most `CALL_DEPTH_MAX` entries (10_state.md R20). -/
abbrev DepthOk (bound : Option Nat) (cs : List Word) : Prop :=
  ∀ n ∈ bound, cs.length ≤ n

/-- The parts of the state a callback may write (43_system.md R99). -/
def State.view (s : State) : HostView :=
  { mem := s.mem, x := s.x, pc := s.pc, cs := s.cs, cl := s.cl, status := s.status, it := s.it }

/-- The state with those parts replaced. -/
def State.withView (v : HostView) (s : State) : State :=
  { s with mem := v.mem, x := v.x, pc := v.pc, cs := v.cs, cl := v.cl,
           status := v.status, it := v.it }

/-- What a callback may leave (43_system.md R99): a memory no longer than `MEM_MAX` and a stack no
deeper than `CALL_DEPTH_MAX`, each in the model's canonical form. -/
abbrev HostView.Admissible (cfg : Config) (v : HostView) : Prop :=
  v.mem.wf ∧ v.mem.len ≤ cfg.memMax ∧ DepthOk cfg.callDepthMax v.cs ∧ InterruptTableWf v.it

/-- A callback's writes, when it leaves `v`. R99 admits no callback that leaves anything else than
an admissible view; one that would is taken to change nothing (assumption log 5). -/
def State.applyCallback (v : HostView) (s : State) : State :=
  { (if v.Admissible s.cfg then s.withView v else s) with draws := s.draws + 1 }

/-- `S <- Invoke(h, i, S, d)` with the next free draw (43_system.md R98, R99). The fault record is
kept and no instruction executes. -/
def State.invoke (h : Handler) (i : Byte) (s : State) : State :=
  s.applyCallback (Config.callback h i s.view s.fr s.draws)

end Sys2Proof.Machine
end

