-- ==== Sys2Proof/Machine/System.lean ====
section
/-! DEFINITION. INT and CPUID (43_system.md). -/

namespace Sys2Proof.Machine

/-- INT: the callback sees `pc` past the instruction; an index with no entry is signalled and
execution continues (R98). -/
def execInt (i : Byte) (s : State) : Host.Outcome State Fault Refusal :=
  .next (match s.handler i with
    | some h => (s.advance 2).invoke h i
    | none => (s.advance 2).signal (.unhandledInterrupt i))

/-- CPUID: reserved; it raises `InvalidOpcode` with its own opcode byte (R100, D28). -/
def execCpuid (s : State) : Host.Outcome State Fault Refusal :=
  s.settle (.error (.invalidOpcode (s.cfg.opcodeMap.byteOf .cpuid)))

end Sys2Proof.Machine
end

