-- ==== Sys2Proof/Machine/Dispatch.lean ====
section
/-! DEFINITION. One arm per instruction (30_encoding.md R47, `Execute(I)`). -/

namespace Sys2Proof.Machine

def exec (i : Instr) (s : State) : Host.Outcome State Fault Refusal :=
  match i with
  | .nop => Sys2Proof.Machine.execNop s
  | .load1 d v => Sys2Proof.Machine.execLoad1 d v s
  | .load2 d v => Sys2Proof.Machine.execLoad2 d v s
  | .load3 d v => Sys2Proof.Machine.execLoad3 d v s
  | .load4 d v => Sys2Proof.Machine.execLoad4 d v s
  | .load5 d v => Sys2Proof.Machine.execLoad5 d v s
  | .load6 d v => Sys2Proof.Machine.execLoad6 d v s
  | .load7 d v => Sys2Proof.Machine.execLoad7 d v s
  | .load8 d v => Sys2Proof.Machine.execLoad8 d v s
  | .mov w src dst => Sys2Proof.Machine.execMov w src dst s
  | .add a b c => Sys2Proof.Machine.execAdd a b c s
  | .sub a b c => Sys2Proof.Machine.execSub a b c s
  | .mul a b c => Sys2Proof.Machine.execMul a b c s
  | .div a b c => Sys2Proof.Machine.execDiv a b c s
  | .not a => Sys2Proof.Machine.execNot a s
  | .and a b => Sys2Proof.Machine.execAnd a b s
  | .or a b => Sys2Proof.Machine.execOr a b s
  | .xor a b => Sys2Proof.Machine.execXor a b s
  | .cmp a b => Sys2Proof.Machine.execCmp a b s
  | .jmp t => Sys2Proof.Machine.execJmp t s
  | .ret => Sys2Proof.Machine.execRet s
  | .hlt => Sys2Proof.Machine.execHlt s
  | .int n => Sys2Proof.Machine.execInt n s
  | .cpuid => Sys2Proof.Machine.execCpuid s

end Sys2Proof.Machine
end

