-- ==== Sys2Proof/Machine/Fetch.lean ====
section
/-! DEFINITION. What a step does around the instruction: the halted and the dead-end step, and
fetching and decoding the instruction at the program counter (30_encoding.md R47 to R52). -/

namespace Sys2Proof.Machine

/-- A step begins: the loading phase is over, no signal is raised yet, and the step will return
`Completed` unless something later says otherwise (30_encoding.md R47; 20_memory.md R38). -/
def State.beginStep (s : State) : State :=
  { s with result := some .completed, signals := [], loading := false }

/-- A step requested while `status = Halted` (70_reset_and_hazards.md R123): no component of the
unit changes. -/
def State.notRunning (s : State) : State := { s.beginStep with result := some .notRunning }

/-- `uint(pc) >= len(M)` (30_encoding.md R48). -/
abbrev State.AtDeadEnd (s : State) : Prop := s.mem.len ≤ s.pc.toNat

/-- The dead-end step (30_encoding.md R48). -/
def State.deadEnd (s : State) : State :=
  { (s.beginStep.halt.signal (.deadEnd s.pc)) with result := some .deadEnd }

/-- The bytes of the instruction stream that one instruction can use: from `pc` up, as many as the
longest instruction has, or as remain (30_encoding.md R50, R59; assumption log 15). -/
def State.window (s : State) : List Byte :=
  s.mem.bytes s.pc.toNat (min maxInstrLength (s.mem.len - s.pc.toNat))

/-- The instruction at the program counter (30_encoding.md R47, `Decode(op)` and its operand
fetches). -/
def State.fetchDecode (s : State) : Except DecodeError Instr :=
  match decode s.cfg.opcodeMap s.window with
  | .ok (i, _) => .ok i
  | .error e => .error e

end Sys2Proof.Machine

namespace Sys2Proof

/-- The fault that bytes which are no instruction raise, for an instruction at address `start`
(30_encoding.md R50, R51, R52, R60). -/
def DecodeError.cause (start : Nat) : DecodeError → Machine.FaultCause
  | .invalidOpcode op => .invalidOpcode op
  | .registerIndexOutOfRange b => .registerIndexOutOfRange b
  | .illegalMoveOperand F => .illegalMoveOperand F
  | .truncated off n => .memoryOutOfBounds (start + off) n

end Sys2Proof
end

