-- ==== Sys2Proof/Machine/Step.lean ====
section
/-! DEFINITION. The step (30_encoding.md R47). -/

namespace Sys2Proof.Machine

/-- `Step()` (30_encoding.md R47): nothing while halted; the dead-end check; then the instruction at
the program counter, or the fault its bytes raise. -/
def step (s : State) : Host.Outcome State Fault Refusal :=
  if s.status = .halted then .next s.notRunning
  else if s.AtDeadEnd then .next s.deadEnd
  else
    match s.fetchDecode with
    | .ok i => exec i s.beginStep
    | .error e => .next (s.beginStep.raise s.pc (e.cause s.pc.toNat))

/-- `s` with the instruction whose bits are `w` stored at the program counter, and the machine
running, so that the next step runs it. Memory grows as far as the longest instruction needs. It
stands for the host's loading of a program (assumption log 12). -/
def State.withFetchWord (s : State) (nbits w : Nat) : State :=
  { s with
    status := .running
    mem := { s.mem with len := max s.mem.len (s.pc.toNat + maxInstrLength) }.writeBytes
      s.pc.toNat (wordBytes nbits w) }

end Sys2Proof.Machine
end

