-- ==== Sys2Proof/Machine/HostInterface.lean ====
section
/-! DEFINITION. The host's operations other than Step (10_state.md R27). They fall between steps
(assumption log 19). Construct is `State.reset`. -/

namespace Sys2Proof.Machine

/-- Append(b): one more byte at the end of Memory. The interface refuses it (`none`) outside the
loading phase and past `MEM_MAX` (20_memory.md R38; K15, K17). -/
def State.append (b : Byte) (s : State) : Option State :=
  if s.loading = true ∧ s.mem.len < s.cfg.memMax then some { s with mem := s.mem.append b } else none

/-- A program's bytes, appended one by one (70_reset_and_hazards.md R122). -/
def State.appendAll : List Byte → State → Option State
  | [], s => some s
  | b :: bs, s =>
    match s.append b with
    | some s' => s'.appendAll bs
    | none => none

/-- RegisterInterrupt(i, h): the last registration wins (60_exceptions.md R110). -/
def State.registerInterrupt (i : Byte) (h : Handler) (s : State) : State :=
  { s with it := sparsePut i.toNat h s.it }

/-- Reset (70_reset_and_hazards.md R120): Memory and the Interrupt Table are kept, and the host may
append again. -/
def State.hostReset (s : State) : State :=
  { s with
    x := State.reset.x, pc := 0, cs := [], cl := { a := 0, b := 0 }, status := .running, fr := none
    result := none, signals := [], loading := true }

/-- What the host may read (10_state.md R28). -/
structure Introspection where
  x : RegFile
  cs : List Word
  pc : Word
  cl : CmpLatch
  fr : Option FaultRecord
  mem : List Byte
deriving DecidableEq, Repr

/-- Introspect (10_state.md R28): it reads and changes nothing. -/
def State.introspect (s : State) : Introspection :=
  { x := s.x, cs := s.cs, pc := s.pc, cl := s.cl, fr := s.fr, mem := s.mem.bytes 0 s.mem.len }

/-- Status (10_state.md R22, R27): whether the machine should keep stepping. -/
def State.statusQuery (s : State) : Bool := decide (s.status = .running)

end Sys2Proof.Machine
end

