-- ==== Sys2Proof/Safety.lean ====
section
/-! DEFINITION. What holds of every state a machine of the spec can be in, and how a run ends
(10_state.md; 70_reset_and_hazards.md R124). -/

namespace Sys2Proof.Machine

/-- The parameters are ones 00_scope.md R7 admits. -/
abbrev ConfigWf (c : Config) : Prop := c.opcodeMap.Injective ∧ c.memMax < 2 ^ 64

/-- The information of a record is what its fault's row records (60_exceptions.md R103). -/
abbrev FaultRecord.Wf (c : Config) (r : FaultRecord) : Prop :=
  match r.code, r.info with
  | .invalidOpcode, .value n => n < 256
  | .registerIndexOutOfRange, .value n => 16 ≤ n ∧ n < 256
  | .divideByZero, .value n => n = 0
  | .divideOverflow, .value n => n = 0
  | .stackUnderflow, .value n => n = 0
  | .memoryOutOfBounds, .access _ n => 1 ≤ n ∧ n ≤ 8
  | .illegalMoveOperand, .value n => n < 256 ∧ legalFlags (BitVec.ofNat 8 n) = false
  | .callStackOverflow, .value n => c.callDepthMax = some n
  | _, _ => False

/-- The invariant of the machine: admissible parameters; canonical Memory no longer than `MEM_MAX`
(10_state.md R14); a stack within `CALL_DEPTH_MAX` (R20); a canonical Interrupt Table (R24); a fault
record only in a halted machine, and then one of R103's rows (R22, R23). -/
structure State.Inv (s : State) : Prop where
  cfg : ConfigWf s.cfg
  mem : s.mem.wf
  memLen : s.mem.len ≤ s.cfg.memMax
  depth : DepthOk s.cfg.callDepthMax s.cs
  table : InterruptTableWf s.it
  running : s.status = .running → s.fr = none
  record : ∀ r ∈ s.fr, r.Wf s.cfg

/-- A run whose last step went from `s` to `t` ended well: that step executed HLT, and no fault is
recorded (70_reset_and_hazards.md R124). -/
def EndedWell (s t : State) : Prop :=
  s.status = .running ∧ s.pc.toNat < s.mem.len ∧ s.fetchDecode = .ok .hlt ∧ step s = .next t ∧
    t.fr = none

/-- A run ended on a dead-end in this state (70_reset_and_hazards.md R124). -/
def State.EndedOnDeadEnd (s : State) : Prop :=
  s.status = .halted ∧ s.result = some .deadEnd ∧ s.fr = none

/-- A run ended in a fault in this state (70_reset_and_hazards.md R124). -/
def State.EndedInFault (s : State) : Prop := s.status = .halted ∧ s.fr ≠ none

/-- The components of the unit agree: everything but the model's own fields. -/
def SameUnit (s t : State) : Prop :=
  t.mem = s.mem ∧ t.x = s.x ∧ t.pc = s.pc ∧ t.cs = s.cs ∧ t.cl = s.cl ∧ t.status = s.status ∧
    t.fr = s.fr ∧ t.it = s.it ∧ t.cfg = s.cfg

end Sys2Proof.Machine
end

