-- ==== Sys2Proof/Certificates/Slice0/Obligations.lean ====
section
/-! DEFINITION. The statements for the provers. Each docstring names the rule of spec/ it rests on.
`exec i s` runs with `s.pc` at the instruction's opcode byte (assumption log 10). -/

open Sys2Proof Sys2Proof.Machine

/-! ## Encoding -/

/-- Decoding the bytes of a well-formed instruction gives it back, whatever follows them, under
every one-to-one opcode map (30_encoding.md R53 to R60). -/
def Obligations.DecodeEncodeRoundTrip : Prop :=
  ∀ (m : OpcodeMap) (i : Instr) (rest : List Byte), m.Injective → i.wellFormed = true →
    decode m (encode m i ++ rest) = .ok (i, rest)

/-- Bytes that decode are the bytes of the instruction they decode to: each byte sequence has one
meaning, and no bit of it is dropped (30_encoding.md R54 to R60). -/
def Obligations.DecodedBytesAreTheEncoding : Prop :=
  ∀ (m : OpcodeMap) (bs rest : List Byte) (i : Instr), decode m bs = .ok (i, rest) →
    i.wellFormed = true ∧ bs = encode m i ++ rest

/-- Two byte sequences that agree in their first two bytes decode to instructions of one length,
which is the number of bytes used, 1 to 18 (30_encoding.md R61). -/
def Obligations.LengthFollowsFromFirstTwoBytes : Prop :=
  ∀ (m : OpcodeMap) (b0 b1 : Byte) (r1 r2 t1 t2 : List Byte) (i1 i2 : Instr),
    decode m (b0 :: b1 :: r1) = .ok (i1, t1) → decode m (b0 :: b1 :: r2) = .ok (i2, t2) →
    i1.length = i2.length ∧ 1 ≤ i1.length ∧ i1.length ≤ 18 ∧
      (b0 :: b1 :: r1).length = i1.length + t1.length

/-- A few encodings of the spec, written out byte by byte, decode to the instructions they stand for
under the default map, and a few that are none are refused by name. A sanity statement. -/
def Obligations.SpecWordsDecode : Prop :=
  decode OpcodeMap.default [0x01, 0x00, 0x04] = .ok (.load1 0 4, []) ∧
  decode OpcodeMap.default [0x02, 0x01, 0xF4, 0x01] = .ok (.load2 1 500, []) ∧
  decode OpcodeMap.default [0x09, 0x44, 0x03, 0x10, 0x00, 0x00, 0x00] =
    .ok (.mov 4 (.reg 3) (.mem 16), []) ∧
  decode OpcodeMap.default [0x09, 0x12, 0x10, 0x00, 0x05] = .ok (.mov 2 (.mem 16) (.reg 5), []) ∧
  decode OpcodeMap.default [0x09, 0x61, 0x2A, 0x10] = .ok (.mov 1 (.const 42) (.mem 16), []) ∧
  decode OpcodeMap.default [0x0A, 0x00, 0x01, 0x02] = .ok (.add 0 1 2, []) ∧
  decode OpcodeMap.default [0x12, 0x02, 0x09] = .ok (.cmp 2 9, []) ∧
  decode OpcodeMap.default [0x13, 0x11, 0, 0, 0, 0, 0, 0, 0] = .ok (.jmp 17, []) ∧
  decode OpcodeMap.default [0x16, 0x03] = .ok (.int 3, []) ∧
  decode OpcodeMap.default [0x18] = .error (.invalidOpcode 0x18) ∧
  decode OpcodeMap.default [0x08, 0xFF] = .error (.registerIndexOutOfRange 0xFF) ∧
  decode OpcodeMap.default [0x09, 0xA1, 0x01, 0x02] = .error (.illegalMoveOperand 0xA1) ∧
  decode OpcodeMap.default [0x0A, 0x00, 0x01] = .error (.truncated 3 1)

/-! ## The step -/

/-- A step of a running machine whose bytes at the program counter decode runs the decoded
instruction, from the same state with the step's outputs made ready (30_encoding.md R47). -/
def Obligations.StepRunsDecodedInstruction : Prop :=
  ∀ (s : State) (i : Instr), s.status = .running → s.pc.toNat < s.mem.len →
    s.fetchDecode = .ok i →
    step s = exec i { s with result := some .completed, signals := [], loading := false }

/-- A well-formed instruction whose encoding stands in Memory at the program counter of a running
machine is the one the step runs, under every one-to-one opcode map (R3, R43, R47). -/
def Obligations.StepRunsStoredEncoding : Prop :=
  ∀ (s : State) (i : Instr), s.status = .running → s.cfg.opcodeMap.Injective →
    i.wellFormed = true → s.pc.toNat + i.length ≤ s.mem.len →
    s.mem.bytes s.pc.toNat i.length = encode s.cfg.opcodeMap i →
    step s = exec i { s with result := some .completed, signals := [], loading := false }

/-- The 18 bytes the step looks at are enough: decoding all the bytes up to the end of Memory gives
the same instruction or the same error (30_encoding.md R50, R59; the model's choice, assumption log
15). -/
def Obligations.FetchWindowSuffices : Prop :=
  ∀ s : State, s.fetchDecode =
    (decode s.cfg.opcodeMap (s.mem.bytes s.pc.toNat (s.mem.len - s.pc.toNat))).map Prod.fst

/-- A step while halted changes no state of the unit, raises no signal and returns `NotRunning`
(70_reset_and_hazards.md R123). -/
def Obligations.HaltedStepChangesNothing : Prop :=
  ∀ s : State, s.status = .halted → step s =
    .next { s with result := some .notRunning, signals := [], loading := false }

/-- A running machine whose program counter is at or past the end of Memory halts with the signal
`DeadEnd(pc)`, and nothing else of the unit changes (30_encoding.md R48). -/
def Obligations.DeadEndHaltsTheMachine : Prop :=
  ∀ s : State, s.status = .running → s.mem.len ≤ s.pc.toNat → step s =
    .next { s with status := .halted, result := some .deadEnd, signals := [.deadEnd s.pc],
                   loading := false }

/-- Every instruction on every state, and every step of every state, gives a next state: there is no
fault or refusal of the interface (93_implementation_defined.md, end of section 1; that a fault is a
next state is the model's form, assumption log 9). -/
def Obligations.EveryStepHasANextState : Prop :=
  (∀ (i : Instr) (s : State), ∃ t, exec i s = .next t) ∧ ∀ s : State, ∃ t, step s = .next t

/-- Taking a fault `f`: a step that returns `Faulted(code(f))` leaves the program counter at the
faulting instruction, the machine halted and `f`'s code, that address and `f`'s information recorded,
and changes no register, memory byte, stack entry, latch slot or table entry (60_exceptions.md R104,
R105). -/
def Obligations.FaultsArePrecise : Prop :=
  ∀ (s t : State) (c : FaultCode), step s = .next t → t.result = some (.faulted c) →
    s.status = .running ∧ ∃ f : FaultCause, f.code = c ∧ t = { s with
      status := .halted, fr := some { code := c, addr := s.pc, info := f.info }
      result := some (.faulted c), signals := [], loading := false }

/-- Only a fault writes the fault record; a callback does not (10_state.md R23). -/
def Obligations.OnlyFaultsWriteTheFaultRecord : Prop :=
  ∀ s t : State, step s = .next t → (∀ c, t.result ≠ some (.faulted c)) → t.fr = s.fr

/-- An opcode byte no instruction has raises `InvalidOpcode(op)`; a byte an instruction has selects
that instruction alone (30_encoding.md R52). -/
def Obligations.OpcodeByteSelectsOneInstructionOrFaults : Prop :=
  ∀ s : State, s.status = .running → s.pc.toNat < s.mem.len →
    ((∀ k, s.cfg.opcodeMap.byteOf k ≠ s.mem.byte s.pc.toNat) → step s = .next { s with
      status := .halted
      fr := some { code := .invalidOpcode, addr := s.pc,
                   info := .value (s.mem.byte s.pc.toNat).toNat }
      result := some (.faulted .invalidOpcode), signals := [], loading := false }) ∧
    (∀ k, s.cfg.opcodeMap.Injective → s.cfg.opcodeMap.byteOf k = s.mem.byte s.pc.toNat →
      (∀ i, s.fetchDecode = .ok i → i.opcode = k) ∧
        ∀ op, s.fetchDecode ≠ .error (.invalidOpcode op))

/-- For every instruction that begins with a register operand: a register byte of 16 to 255 raises
`RegisterIndexOutOfRange` at once, whatever follows it (30_encoding.md R51; 60_exceptions.md
R106). -/
def Obligations.FirstRegisterByteOutOfRangeFaults : Prop :=
  ∀ (s : State) (k : Opcode), s.status = .running → s.cfg.opcodeMap.Injective →
    k ∉ [Opcode.nop, .mov, .jmp, .ret, .hlt, .int, .cpuid] →
    s.pc.toNat + 1 < s.mem.len → s.mem.byte s.pc.toNat = s.cfg.opcodeMap.byteOf k →
    16 ≤ (s.mem.byte (s.pc.toNat + 1)).toNat →
    step s = .next { s with
      status := .halted
      fr := some { code := .registerIndexOutOfRange, addr := s.pc,
                   info := .value (s.mem.byte (s.pc.toNat + 1)).toNat }
      result := some (.faulted .registerIndexOutOfRange), signals := [], loading := false }

/-- A register byte of 16 to 255 raises `RegisterIndexOutOfRange` wherever an instruction has one: for
the instructions that begin with one to three registers, the first such byte of them; for a Move,
the source register (flags `0x0w` and `0x4w`), or the destination register (flags `0x0w`, after a
source register below 16, and `0x1w` and `0x2w`). Nothing is asked of the bytes after it, of the
operands' values or of the memory a Move would access, so the fault comes before any of that
(30_encoding.md R51, R55; 40_data_movement.md R75 to R77, R79; 60_exceptions.md R106). -/
def Obligations.AnyRegisterByteOutOfRangeFaults : Prop :=
  ∀ (s : State) (j : Nat), s.status = .running → s.cfg.opcodeMap.Injective →
    s.pc.toNat + j < s.mem.len → 16 ≤ (s.mem.byte (s.pc.toNat + j)).toNat →
    ((∃ k n, (k, n) ∈ [(Opcode.add, 3), (.sub, 3), (.mul, 3), (.div, 3), (.and, 2), (.or, 2),
          (.xor, 2), (.cmp, 2), (.not, 1), (.load1, 1), (.load2, 1), (.load3, 1), (.load4, 1),
          (.load5, 1), (.load6, 1), (.load7, 1), (.load8, 1)] ∧
        s.mem.byte s.pc.toNat = s.cfg.opcodeMap.byteOf k ∧ 1 ≤ j ∧ j ≤ n ∧
        ∀ q, 1 ≤ q → q < j → (s.mem.byte (s.pc.toNat + q)).toNat < 16) ∨
      (∃ F, s.mem.byte s.pc.toNat = s.cfg.opcodeMap.byteOf .mov ∧
        (s.mem.byte (s.pc.toNat + 1)).toNat = F ∧
        ((j = 2 ∧ (F / 16 = 0 ∨ F / 16 = 4 ∧ 1 ≤ F % 16 ∧ F % 16 ≤ 8)) ∨
          (j = 3 ∧ F / 16 = 0 ∧ (s.mem.byte (s.pc.toNat + 2)).toNat < 16) ∨
          (j = 2 + F % 16 ∧ (F / 16 = 1 ∨ F / 16 = 2) ∧ 1 ≤ F % 16 ∧ F % 16 ≤ 8)))) →
    step s = .next { s with
      status := .halted
      fr := some { code := .registerIndexOutOfRange, addr := s.pc,
                   info := .value (s.mem.byte (s.pc.toNat + j)).toNat }
      result := some (.faulted .registerIndexOutOfRange), signals := [], loading := false }

/-- An instruction whose operands run past the end of Memory raises `MemoryOutOfBounds` for the one
field that does not fit: its address is the field's first byte and its width is the whole field's. It
is not a dead-end. The fields are those of R54 and R59, as offset and width: a register, flags or
index byte, the N value bytes of LOADN, the 8 bytes of a JMP target, and a Move's source and
destination operands (30_encoding.md R50, R54, R59, D22; 60_exceptions.md R106). -/
def Obligations.TruncatedInstructionFaults : Prop :=
  ∀ (s : State) (i : Instr) (k off n : Nat), s.status = .running →
    s.cfg.opcodeMap.Injective → i.wellFormed = true → 1 ≤ k → s.mem.len = s.pc.toNat + k →
    s.mem.bytes s.pc.toNat k = (encode s.cfg.opcodeMap i).take k →
    (off, n) ∈ (match i with
      | .nop | .ret | .hlt | .cpuid => []
      | .load1 _ _ => [(1, 1), (2, 1)]
      | .load2 _ _ => [(1, 1), (2, 2)]
      | .load3 _ _ => [(1, 1), (2, 3)]
      | .load4 _ _ => [(1, 1), (2, 4)]
      | .load5 _ _ => [(1, 1), (2, 5)]
      | .load6 _ _ => [(1, 1), (2, 6)]
      | .load7 _ _ => [(1, 1), (2, 7)]
      | .load8 _ _ => [(1, 1), (2, 8)]
      | .mov w src dst => [(1, 1), (2, src.length w), (2 + src.length w, dst.length w)]
      | .add _ _ _ | .sub _ _ _ | .mul _ _ _ | .div _ _ _ => [(1, 1), (2, 1), (3, 1)]
      | .and _ _ | .or _ _ | .xor _ _ | .cmp _ _ => [(1, 1), (2, 1)]
      | .not _ | .int _ => [(1, 1)]
      | .jmp _ => [(1, 8)] : List (Nat × Nat)) →
    off ≤ k → k < off + n →
    step s = .next { s with
      status := .halted
      fr := some { code := .memoryOutOfBounds, addr := s.pc,
                   info := .access (s.pc.toNat + off) n }
      result := some (.faulted .memoryOutOfBounds), signals := [], loading := false }

/-- A Move flags byte outside the six legal forms raises `IllegalMoveOperand(F)` before any operand
byte is looked at. The legal bytes are written here as numbers: below 16 register to register with
any width; else a high half of 1, 2, 4, 5 or 6 with a width of 1 to 8 (30_encoding.md R59, R60;
40_data_movement.md R81). -/
def Obligations.IllegalMoveFlagsFault : Prop :=
  ∀ (s : State) (F : Nat), s.status = .running → s.cfg.opcodeMap.Injective →
    s.pc.toNat + 1 < s.mem.len → s.mem.byte s.pc.toNat = s.cfg.opcodeMap.byteOf .mov →
    F = (s.mem.byte (s.pc.toNat + 1)).toNat →
    ¬ (F < 16 ∨ (F / 16 ∈ [1, 2, 4, 5, 6] ∧ 1 ≤ F % 16 ∧ F % 16 ≤ 8)) →
    step s = .next { s with
      status := .halted
      fr := some { code := .illegalMoveOperand, addr := s.pc, info := .value F }
      result := some (.faulted .illegalMoveOperand), signals := [], loading := false }

/-! ## Data movement -/

/-- NOP only moves the program counter past itself (40_data_movement.md R65). -/
def Obligations.NopOnlyAdvances : Prop :=
  ∀ s : State, exec .nop s = .next { s with pc := s.pc + 1 }

/-- LOAD1 to LOAD8 write the value, zero-extended to 64 bits, to the register, move the program
counter past the instruction and change nothing else (R66 to R73). -/
def Obligations.LoadsZeroExtend : Prop :=
  (∀ d v s, exec (.load1 d v) s =
    .next { s with x := s.x.set d (BitVec.ofNat 64 v.toNat), pc := s.pc + 3 }) ∧
  (∀ d v s, exec (.load2 d v) s =
    .next { s with x := s.x.set d (BitVec.ofNat 64 v.toNat), pc := s.pc + 4 }) ∧
  (∀ d v s, exec (.load3 d v) s =
    .next { s with x := s.x.set d (BitVec.ofNat 64 v.toNat), pc := s.pc + 5 }) ∧
  (∀ d v s, exec (.load4 d v) s =
    .next { s with x := s.x.set d (BitVec.ofNat 64 v.toNat), pc := s.pc + 6 }) ∧
  (∀ d v s, exec (.load5 d v) s =
    .next { s with x := s.x.set d (BitVec.ofNat 64 v.toNat), pc := s.pc + 7 }) ∧
  (∀ d v s, exec (.load6 d v) s =
    .next { s with x := s.x.set d (BitVec.ofNat 64 v.toNat), pc := s.pc + 8 }) ∧
  (∀ d v s, exec (.load7 d v) s =
    .next { s with x := s.x.set d (BitVec.ofNat 64 v.toNat), pc := s.pc + 9 }) ∧
  (∀ d v s, exec (.load8 d v) s =
    .next { s with x := s.x.set d (BitVec.ofNat 64 v.toNat), pc := s.pc + 10 })

/-- For every N from 1 to 8, a step over a LOADN in Memory writes to the register the number its N
value bytes are in little-endian order, zero-extended, and nothing else but the program counter
(R66 to R73; 20_memory.md R33). -/
def Obligations.LoadFromMemoryBytes : Prop :=
  ∀ (s : State) (k : Opcode) (n : Nat) (d : Reg),
    (k, n) ∈ [(Opcode.load1, 1), (.load2, 2), (.load3, 3), (.load4, 4), (.load5, 5), (.load6, 6),
      (.load7, 7), (.load8, 8)] →
    s.status = .running → s.cfg.opcodeMap.Injective → s.pc.toNat + n + 2 ≤ s.mem.len →
    s.mem.byte s.pc.toNat = s.cfg.opcodeMap.byteOf k →
    (s.mem.byte (s.pc.toNat + 1)).toNat = d.val →
    step s = .next { s with
      x := s.x.set d (BitVec.ofNat 64 (∑ j ∈ Finset.range n,
        (s.mem.byte (s.pc.toNat + 2 + j)).toNat * 2 ^ (8 * j)))
      pc := s.pc + BitVec.ofNat 64 (n + 2)
      result := some .completed, signals := [], loading := false }

/-- MOV register to register copies all 64 bits, whatever the width field holds (R75). -/
def Obligations.MovRegisterToRegister : Prop :=
  ∀ (w : BitVec 4) (a d : Reg) (s : State), exec (.mov w (.reg a) (.reg d)) s =
    .next { s with x := s.x.set d (s.x.get a), pc := s.pc + 4 }

/-- MOV register to memory stores the low `w` bytes of the register, least significant first, at the
operand's address; every other byte and everything else but the program counter is unchanged
(R76). -/
def Obligations.MovRegisterToMemory : Prop :=
  ∀ (w : BitVec 4) (r : Reg) (ad : Word) (s : State), 1 ≤ w.toNat → w.toNat ≤ 8 →
    ad.toNat + w.toNat ≤ s.mem.len →
    ∃ m : Memory, exec (.mov w (.reg r) (.mem ad)) s =
        .next { s with mem := m, pc := s.pc + BitVec.ofNat 64 (3 + w.toNat) } ∧
      m.len = s.mem.len ∧ ∀ a, m.byte a =
        if ad.toNat ≤ a ∧ a < ad.toNat + w.toNat
        then (s.x.get r).extractLsb' (8 * (a - ad.toNat)) 8 else s.mem.byte a

/-- MOV memory to register writes the `w` bytes at the address, little-endian and zero-extended, to
the register (R77). -/
def Obligations.MovMemoryToRegister : Prop :=
  ∀ (w : BitVec 4) (a : Word) (d : Reg) (s : State), 1 ≤ w.toNat → w.toNat ≤ 8 →
    a.toNat + w.toNat ≤ s.mem.len →
    exec (.mov w (.mem a) (.reg d)) s = .next { s with
      x := s.x.set d (BitVec.ofNat 64 (∑ j ∈ Finset.range w.toNat,
        (s.mem.byte (a.toNat + j)).toNat * 2 ^ (8 * j)))
      pc := s.pc + BitVec.ofNat 64 (3 + w.toNat) }

/-- MOV memory to memory copies the `w` bytes the source held before, though the ranges overlap;
every other byte is unchanged (R78). -/
def Obligations.MovMemoryToMemory : Prop :=
  ∀ (w : BitVec 4) (a ad : Word) (s : State), 1 ≤ w.toNat → w.toNat ≤ 8 →
    a.toNat + w.toNat ≤ s.mem.len → ad.toNat + w.toNat ≤ s.mem.len →
    ∃ m : Memory, exec (.mov w (.mem a) (.mem ad)) s =
        .next { s with mem := m, pc := s.pc + BitVec.ofNat 64 (2 + 2 * w.toNat) } ∧
      m.len = s.mem.len ∧ ∀ b, m.byte b =
        if ad.toNat ≤ b ∧ b < ad.toNat + w.toNat
        then s.mem.byte (a.toNat + (b - ad.toNat)) else s.mem.byte b

/-- MOV constant to register writes the literal (R79). -/
def Obligations.MovConstantToRegister : Prop :=
  ∀ (w : BitVec 4) (k : Word) (d : Reg) (s : State), 1 ≤ w.toNat → w.toNat ≤ 8 →
    exec (.mov w (.const k) (.reg d)) s =
      .next { s with x := s.x.set d k, pc := s.pc + BitVec.ofNat 64 (3 + w.toNat) }

/-- MOV constant to memory stores the `w` bytes of the literal at the operand's address; every other
byte is unchanged (R80). -/
def Obligations.MovConstantToMemory : Prop :=
  ∀ (w : BitVec 4) (k ad : Word) (s : State), 1 ≤ w.toNat → w.toNat ≤ 8 →
    ad.toNat + w.toNat ≤ s.mem.len →
    ∃ m : Memory, exec (.mov w (.const k) (.mem ad)) s =
        .next { s with mem := m, pc := s.pc + BitVec.ofNat 64 (2 + 2 * w.toNat) } ∧
      m.len = s.mem.len ∧ ∀ a, m.byte a =
        if ad.toNat ≤ a ∧ a < ad.toNat + w.toNat
        then k.extractLsb' (8 * (a - ad.toNat)) 8 else s.mem.byte a

/-- A Move's source access out of bounds faults whatever its destination; with the source in bounds,
a destination access out of bounds faults; no byte or register changes (R74; 60_exceptions.md
R106). -/
def Obligations.MovOutOfBoundsFaults : Prop :=
  (∀ (w : BitVec 4) (a : Word) (dst : MovDst) (s : State), 1 ≤ w.toNat → w.toNat ≤ 8 →
    s.mem.len < a.toNat + w.toNat → exec (.mov w (.mem a) dst) s = .next { s with
      status := .halted
      fr := some { code := .memoryOutOfBounds, addr := s.pc, info := .access a.toNat w.toNat }
      result := some (.faulted .memoryOutOfBounds) }) ∧
  (∀ (w : BitVec 4) (src : MovSrc) (ad : Word) (s : State), 1 ≤ w.toNat → w.toNat ≤ 8 →
    (∀ a, src = .mem a → a.toNat + w.toNat ≤ s.mem.len) → s.mem.len < ad.toNat + w.toNat →
    exec (.mov w src (.mem ad)) s = .next { s with
      status := .halted
      fr := some { code := .memoryOutOfBounds, addr := s.pc, info := .access ad.toNat w.toNat }
      result := some (.faulted .memoryOutOfBounds) })

/-! ## Arithmetic, logic and compare -/

/-- ADD, SUB and MUL write the low 64 bits of the exact result, the same for the signed and for the
unsigned reading of the operands, and change nothing else but the program counter
(41_arithmetic_logic.md R82 to R85). -/
def Obligations.AddSubMulKeepLow64Bits : Prop :=
  ∀ (a b c : Reg) (s : State),
    (∃ v : Word, exec (.add a b c) s = .next { s with x := s.x.set c v, pc := s.pc + 4 } ∧
      v.toNat = ((s.x.get a).toNat + (s.x.get b).toNat) % 2 ^ 64 ∧
      v.toInt = ((s.x.get a).toInt + (s.x.get b).toInt).bmod (2 ^ 64)) ∧
    (∃ v : Word, exec (.sub a b c) s = .next { s with x := s.x.set c v, pc := s.pc + 4 } ∧
      (v.toNat : Int) = ((s.x.get a).toNat - (s.x.get b).toNat : Int) % 2 ^ 64 ∧
      v.toInt = ((s.x.get a).toInt - (s.x.get b).toInt).bmod (2 ^ 64)) ∧
    (∃ v : Word, exec (.mul a b c) s = .next { s with x := s.x.set c v, pc := s.pc + 4 } ∧
      v.toNat = ((s.x.get a).toNat * (s.x.get b).toNat) % 2 ^ 64 ∧
      v.toInt = ((s.x.get a).toInt * (s.x.get b).toInt).bmod (2 ^ 64))

/-- DIV writes the quotient rounded toward zero: it leaves a remainder smaller than the divisor and
of the dividend's sign. Nothing else changes but the program counter (R82, R86). -/
def Obligations.DivRoundsTowardZero : Prop :=
  ∀ (a b c : Reg) (s : State), (s.x.get b).toInt ≠ 0 →
    ¬ ((s.x.get a).toInt = -2 ^ 63 ∧ (s.x.get b).toInt = -1) →
    ∃ (q : Word) (r : Int), exec (.div a b c) s =
        .next { s with x := s.x.set c q, pc := s.pc + 4 } ∧
      (s.x.get a).toInt = q.toInt * (s.x.get b).toInt + r ∧
      |r| < |(s.x.get b).toInt| ∧ 0 ≤ r * (s.x.get a).toInt

/-- DIV by zero raises `DivideByZero`, whatever the dividend; `-2^63 / -1` raises `DivideOverflow`;
the store register keeps its value (R86). -/
def Obligations.DivFaults : Prop :=
  ∀ (a b c : Reg) (s : State),
    (s.x.get b = 0 → exec (.div a b c) s = .next { s with
      status := .halted, fr := some { code := .divideByZero, addr := s.pc, info := .value 0 }
      result := some (.faulted .divideByZero) }) ∧
    ((s.x.get a).toInt = -2 ^ 63 → (s.x.get b).toInt = -1 → exec (.div a b c) s = .next { s with
      status := .halted, fr := some { code := .divideOverflow, addr := s.pc, info := .value 0 }
      result := some (.faulted .divideOverflow) })

/-- NOT writes the bitwise complement, whose signed reading is `-v - 1` (R87). -/
def Obligations.NotComplements : Prop :=
  ∀ (a : Reg) (s : State), ∃ v : Word,
    exec (.not a) s = .next { s with x := s.x.set a v, pc := s.pc + 2 } ∧
      (∀ j < 64, v.getLsbD j = !(s.x.get a).getLsbD j) ∧ v.toInt = -(s.x.get a).toInt - 1

/-- AND, OR and XOR write, bit by bit, to their first register (R88 to R90). -/
def Obligations.LogicIsBitwise : Prop :=
  ∀ (a b : Reg) (s : State),
    (∃ v : Word, exec (.and a b) s = .next { s with x := s.x.set a v, pc := s.pc + 3 } ∧
      ∀ j, v.getLsbD j = ((s.x.get a).getLsbD j && (s.x.get b).getLsbD j)) ∧
    (∃ v : Word, exec (.or a b) s = .next { s with x := s.x.set a v, pc := s.pc + 3 } ∧
      ∀ j, v.getLsbD j = ((s.x.get a).getLsbD j || (s.x.get b).getLsbD j)) ∧
    (∃ v : Word, exec (.xor a b) s = .next { s with x := s.x.set a v, pc := s.pc + 3 } ∧
      ∀ j, v.getLsbD j = ((s.x.get a).getLsbD j ^^ (s.x.get b).getLsbD j))

/-- CMP latches the two register values, not their indices, and writes no register (R91). -/
def Obligations.CmpLatchesValues : Prop :=
  ∀ (a b : Reg) (s : State), exec (.cmp a b) s =
    .next { s with cl := { a := s.x.get a, b := s.x.get b }, pc := s.pc + 3 }

/-! ## Control transfer -/

/-- JMP pushes the address of the byte after its operand and goes to its target, any 64-bit value,
where the stack does not hold just `CALL_DEPTH_MAX` entries (42_control_transfer.md R92; assumption
log 17). -/
def Obligations.JumpPushesReturnAddress : Prop :=
  ∀ (t : Word) (s : State), (∀ n, s.cfg.callDepthMax = some n → s.cs.length ≠ n) →
    exec (.jmp t) s = .next { s with cs := s.cs ++ [s.pc + 9], pc := t }

/-- RET goes to the top entry of the Call Stack and removes it (R93). -/
def Obligations.ReturnPopsTheTop : Prop :=
  ∀ (l : List Word) (v : Word) (s : State), s.cs = l ++ [v] →
    exec .ret s = .next { s with cs := l, pc := v }

/-- JMP on a stack that holds `CALL_DEPTH_MAX` entries raises `CallStackOverflow`, and RET on an
empty stack raises `StackUnderflow`; the stack is unchanged (R92, R93; 10_state.md R20). -/
def Obligations.StackFaults : Prop :=
  (∀ (t : Word) (n : Nat) (s : State), s.cfg.callDepthMax = some n → s.cs.length = n →
    exec (.jmp t) s = .next { s with
      status := .halted, fr := some { code := .callStackOverflow, addr := s.pc, info := .value n }
      result := some (.faulted .callStackOverflow) }) ∧
  (∀ s : State, s.cs = [] → exec .ret s = .next { s with
      status := .halted, fr := some { code := .stackUnderflow, addr := s.pc, info := .value 0 }
      result := some (.faulted .stackUnderflow) })

/-- A JMP in Memory to any address that holds a RET: two steps lead back to the byte after the JMP's
operand with the stack as it was, and nothing else of the unit changed (R95). -/
def Obligations.JumpThenReturnRestores : Prop :=
  ∀ (s : State) (t : Word), s.status = .running → s.cfg.opcodeMap.Injective →
    s.pc.toNat + 9 ≤ s.mem.len → s.mem.bytes s.pc.toNat 9 = encode s.cfg.opcodeMap (.jmp t) →
    t.toNat < s.mem.len → s.mem.byte t.toNat = s.cfg.opcodeMap.byteOf .ret →
    (∀ n, s.cfg.callDepthMax = some n → s.cs.length ≠ n) →
    Sys2Proof.core.run 2 s = .next { s with
      pc := s.pc + 9, result := some .completed, signals := [], loading := false }

/-- HLT halts with the program counter past itself; it is no fault and no signal (R94). -/
def Obligations.HltHalts : Prop :=
  ∀ s : State, exec .hlt s = .next { s with status := .halted, pc := s.pc + 1 }

/-! ## System -/

/-- INT with an index that has no entry signals it and goes on (43_system.md R98). -/
def Obligations.IntUnregisteredSignals : Prop :=
  ∀ (i : Byte) (s : State), s.handler i = none → exec (.int i) s =
    .next { s with pc := s.pc + 2, signals := s.signals ++ [.unhandledInterrupt i] }

/-- INT with a registered entry runs the callback once, on the state with the program counter past
the INT, with the next free draw. What the callback leaves within the limits of R99 becomes the
state; the fault record, the parameters and the step's outputs are kept; from a state within the
limits the next state is within them. That a callback outside the limits counts as one that changes
nothing is the model's choice (assumption log 5). (43_system.md R98, R99.) -/
def Obligations.IntRunsTheCallback : Prop :=
  ∀ (i : Byte) (h : Handler) (v : HostView) (s : State), s.handler i = some h →
    v = Config.callback h i { s.view with pc := s.pc + 2 } s.fr s.draws →
    ∃ t, exec (.int i) s = .next t ∧
      (v.Admissible s.cfg → t = { s with
        mem := v.mem, x := v.x, pc := v.pc, cs := v.cs, cl := v.cl, status := v.status, it := v.it
        draws := s.draws + 1 }) ∧
      (¬ v.Admissible s.cfg → t = { s with pc := s.pc + 2, draws := s.draws + 1 }) ∧
      t.fr = s.fr ∧ t.cfg = s.cfg ∧ t.result = s.result ∧ t.signals = s.signals ∧
      (s.view.Admissible s.cfg → t.view.Admissible s.cfg)

/-- CPUID raises `InvalidOpcode` with its own opcode byte, in every state (R100). -/
def Obligations.CpuidRaisesInvalidOpcode : Prop :=
  ∀ s : State, exec .cpuid s = .next { s with
    status := .halted
    fr := some { code := .invalidOpcode, addr := s.pc,
                 info := .value (s.cfg.opcodeMap.byteOf .cpuid).toNat }
    result := some (.faulted .invalidOpcode) }

/-! ## Memory -/

/-- `MemRead(a, n)` gives the little-endian value of the `n` bytes, zero-extended, in bounds, and
raises `MemoryOutOfBounds(a, n)` out of bounds (20_memory.md R30, R31). -/
def Obligations.MemReadIsLittleEndian : Prop :=
  ∀ (m : Memory) (a n : Nat), 1 ≤ n → n ≤ 8 →
    (a + n ≤ m.len → ∃ v : Word, m.read a n = .ok v ∧
      v.toNat = ∑ j ∈ Finset.range n, (m.byte (a + j)).toNat * 2 ^ (8 * j)) ∧
    (m.len < a + n → m.read a n = .error (.memoryOutOfBounds a n))

/-- `MemWrite(a, n, v)` stores byte `j` of `v` at `a + j` for `j` below `n`, leaves every other byte
and the length alone, and out of bounds raises `MemoryOutOfBounds(a, n)` and stores nothing
(20_memory.md R30, R32). -/
def Obligations.MemWriteStoresLowBytes : Prop :=
  ∀ (m : Memory) (a n : Nat) (v : Word), 1 ≤ n → n ≤ 8 →
    (a + n ≤ m.len → ∃ m', m.write a n v = .ok m' ∧ m'.len = m.len ∧
      (∀ j < n, m'.byte (a + j) = v.extractLsb' (8 * j) 8) ∧
      ∀ b, (b < a ∨ a + n ≤ b) → m'.byte b = m.byte b) ∧
    (m.len < a + n → m.write a n v = .error (.memoryOutOfBounds a n))

/-- A narrow read of bytes a wide write placed sees that part of the value (20_memory.md R33). -/
def Obligations.NarrowReadOfWideWrite : Prop :=
  ∀ (m m' : Memory) (a k n : Nat) (v : Word), 1 ≤ n → k + n ≤ 8 → m.write a 8 v = .ok m' →
    m'.read (a + k) n = .ok ((v.extractLsb' (8 * k) (8 * n)).setWidth 64)

/-- The model's form of Memory is canonical: a write and an append keep the form, and two memories
in the form with the same length and bytes are equal (the model's choice, assumption log 11; for
20_memory.md R14, R29). -/
def Obligations.MemoryFormIsCanonical : Prop :=
  (∀ (m m' : Memory) (a n : Nat) (v : Word), m.wf → m.write a n v = .ok m' → m'.wf) ∧
  (∀ (m : Memory) (b : Byte), m.wf → (m.append b).wf) ∧
  (∀ m m' : Memory, m.wf → m'.wf → m.len = m'.len → (∀ a < m.len, m.byte a = m'.byte a) → m = m')

/-! ## The whole machine -/

/-- Which instruction writes which component, an INT that finds an entry apart: no other instruction
writes it. LOAD1 to LOAD8, a Move to a register, ADD, SUB, MUL, DIV, NOT, AND, OR and XOR write no
register but the destination R17 gives them, and no other instruction writes any. A Move to memory
writes no byte outside the `w` bytes at its address, and no other instruction writes any; the length
of Memory and every address past it stay. Only JMP and RET write the stack, only CMP the latch. The
status flag is written by HLT alone, and it and the fault record by a fault, which only MOV, DIV, JMP,
RET and CPUID raise once decoded and which changes nothing else. The Interrupt Table and the
parameters stay (10_state.md R17, R20 to R24; 20_memory.md R39; 60_exceptions.md R103, R104). -/
def Obligations.EachComponentHasItsWriters : Prop :=
  ∀ (i : Instr) (s t : State), exec i s = .next t → (∀ n, i = .int n → s.handler n = none) →
    (match i with
      | .load1 d _ | .load2 d _ | .load3 d _ | .load4 d _ | .load5 d _ | .load6 d _
      | .load7 d _ | .load8 d _ | .mov _ _ (.reg d)
      | .add _ _ d | .sub _ _ d | .mul _ _ d | .div _ _ d
      | .not d | .and d _ | .or d _ | .xor d _ => ∀ r, r ≠ d → t.x.get r = s.x.get r
      | .mov _ _ (.mem _) | .nop | .cmp _ _ | .jmp _ | .ret | .hlt | .int _ | .cpuid =>
        t.x = s.x) ∧
    (match i with
      | .mov w _ (.mem ad) =>
        ∀ b, b < ad.toNat ∨ ad.toNat + w.toNat ≤ b → t.mem.byte b = s.mem.byte b
      | _ => t.mem = s.mem) ∧
    (t.mem.len = s.mem.len ∧ ∀ a, s.mem.len ≤ a → t.mem.byte a = s.mem.byte a) ∧
    (i.opcode ≠ .jmp → i.opcode ≠ .ret → t.cs = s.cs) ∧
    (i.opcode ≠ .cmp → t.cl = s.cl) ∧
    ((t.fr = s.fr ∧ (i.opcode ≠ .hlt → t.status = s.status)) ∨
      (i.opcode ∈ [Opcode.mov, .div, .jmp, .ret, .cpuid] ∧ ∃ f : FaultCause, t = { s with
        status := .halted, fr := some { code := f.code, addr := s.pc, info := f.info }
        result := some (.faulted f.code) })) ∧
    t.it = s.it ∧ t.cfg = s.cfg

/-- Halting is terminal: any number of steps of a halted machine changes no component of the unit
(10_state.md R22; 60_exceptions.md R107, R117). -/
def Obligations.HaltedIsTerminal : Prop :=
  ∀ (k : Nat) (s : State), s.status = .halted →
    ∃ t, Sys2Proof.core.run k s = .next t ∧ SameUnit s t

/-- A step halts a running machine in four cases only: the dead-end, a fault, HLT, and an INT whose
callback did it (10_state.md R22). -/
def Obligations.CausesOfHalting : Prop :=
  ∀ s t : State, step s = .next t → s.status = .running → t.status = .halted →
    s.mem.len ≤ s.pc.toNat ∨ (∃ c, t.result = some (.faulted c)) ∨ s.fetchDecode = .ok .hlt ∨
      ∃ n, s.fetchDecode = .ok (.int n) ∧ s.handler n ≠ none

/-- Every step keeps the invariant of the machine: admissible parameters, canonical Memory within
`MEM_MAX`, the stack within `CALL_DEPTH_MAX`, a canonical Interrupt Table, no fault record while
running, and a record only of a row of R103 (10_state.md R14, R20, R22 to R24; 60_exceptions.md
R103; the canonical forms are the model's, assumption log 11). -/
def Obligations.StepKeepsInvariant : Prop :=
  ∀ s t : State, s.Inv → step s = .next t → t.Inv

/-- The state after reset meets the invariant. Its parameters are the model's choice (assumption
logs 2 to 4). -/
def Obligations.ResetMeetsInvariant : Prop := State.reset.Inv

/-- The host's operations keep the invariant (10_state.md R27; the canonical forms in it are the
model's, assumption log 11). -/
def Obligations.HostOperationsKeepInvariant : Prop :=
  (∀ (b : Byte) (s t : State), s.Inv → s.append b = some t → t.Inv) ∧
  (∀ (i : Byte) (h : Handler) (s : State), s.Inv → (s.registerInterrupt i h).Inv) ∧
  (∀ s : State, s.Inv → s.hostReset.Inv)

/-- The program counter never wraps: where an instruction completes that is no control transfer and
no handled INT, the next program counter is, as a number, the old one plus the length
(10_state.md R18, R19). -/
def Obligations.ProgramCounterNeverWraps : Prop :=
  ∀ (s t : State) (i : Instr), s.Inv → s.status = .running → s.pc.toNat < s.mem.len →
    s.fetchDecode = .ok i → step s = .next t → t.result = some .completed →
    (∀ u, i ≠ .jmp u) → i ≠ .ret → (∀ n, i = .int n → s.handler n = none) →
    t.pc.toNat = s.pc.toNat + i.length

/-- No instruction reads the Comparison Latch: where no callback runs, a step from a state that
differs in the latch alone ends in a state that differs in the latch alone (10_state.md R21). -/
def Obligations.LatchIsNeverRead : Prop :=
  ∀ (s t : State) (c : CmpLatch), step s = .next t →
    (∀ n, s.fetchDecode = .ok (.int n) → s.handler n = none) →
    ∃ c', step { s with cl := c } = .next { t with cl := c' }

/-- A step does not read what an earlier step returned, nor the loading phase: the model's own output
fields carry nothing from step to step (10_state.md R26; assumption logs 7 and 8). -/
def Obligations.OutputsAreNeverRead : Prop :=
  ∀ (s : State) (r : Option StepResult) (g : List Signal) (l : Bool),
    step { s with result := r, signals := g, loading := l } = step s

/-- A Move that writes the bytes right after itself changes what the next step runs: here it writes
a HLT there, and the second step halts on it (20_memory.md R43; 70_reset_and_hazards.md R126). -/
def Obligations.StoredCodeIsFetchedNext : Prop :=
  ∀ (s : State) (k a : Word), s.status = .running → s.cfg.opcodeMap.Injective →
    s.pc.toNat + 18 = a.toNat → a.toNat + 8 ≤ s.mem.len →
    s.mem.bytes s.pc.toNat 18 = encode s.cfg.opcodeMap (.mov 8 (.const k) (.mem a)) →
    BitVec.ofNat 8 k.toNat = s.cfg.opcodeMap.byteOf .hlt →
    ∃ m : Memory, Sys2Proof.core.run 2 s = .next { s with
        mem := m, pc := s.pc + 19, status := .halted
        result := some .completed, signals := [], loading := false } ∧
      m.len = s.mem.len ∧ ∀ b, m.byte b =
        if a.toNat ≤ b ∧ b < a.toNat + 8
        then k.extractLsb' (8 * (b - a.toNat)) 8 else s.mem.byte b

/-! ## The host's operations -/

/-- Construct (70_reset_and_hazards.md R119): empty Memory, zeroed registers, program counter 0,
empty stack, latch (0, 0), Running, no fault record, no interrupt entry. -/
def Obligations.ConstructedState : Prop :=
  State.reset.mem.len = 0 ∧ (∀ r : Reg, State.reset.x.get r = 0) ∧ State.reset.pc = 0 ∧
    State.reset.cs = [] ∧ State.reset.cl.a = 0 ∧ State.reset.cl.b = 0 ∧
    State.reset.status = .running ∧ State.reset.fr = none ∧ ∀ i : Byte, State.reset.handler i = none

/-- Reset (70_reset_and_hazards.md R120): program counter, registers, stack, status, latch and fault
record as after construction; Memory, the Interrupt Table and the parameters unchanged. -/
def Obligations.HostResetRestores : Prop :=
  ∀ s : State, s.hostReset.pc = 0 ∧ (∀ r : Reg, s.hostReset.x.get r = 0) ∧ s.hostReset.cs = [] ∧
    s.hostReset.status = .running ∧ s.hostReset.cl.a = 0 ∧ s.hostReset.cl.b = 0 ∧
    s.hostReset.fr = none ∧ s.hostReset.mem = s.mem ∧ s.hostReset.it = s.it ∧
    s.hostReset.cfg = s.cfg

/-- Append grows Memory by one byte at its end and changes nothing else; it is refused outside the
loading phase (the model's field `loading`, assumption log 8) and at `MEM_MAX` (20_memory.md
R38). -/
def Obligations.AppendGrowsMemoryByOne : Prop :=
  ∀ (b : Byte) (s : State),
    (s.loading = true → s.mem.len < s.cfg.memMax → ∃ m : Memory,
      s.append b = some { s with mem := m } ∧ m.len = s.mem.len + 1 ∧ m.byte s.mem.len = b ∧
        ∀ a, a ≠ s.mem.len → m.byte a = s.mem.byte a) ∧
    (s.loading = false ∨ s.cfg.memMax ≤ s.mem.len → s.append b = none)

/-- A program appended after construction stands in Memory from address 0, and nothing else of the
state changed (20_memory.md R38; 70_reset_and_hazards.md R122). Two parts are the model's choices and
rest on no rule: the bound on the program's length is the `MEM_MAX` of `State.reset` (assumption log
2), and that the Memory is in canonical form, `m.wf`, is the form the model holds it in (assumption
log 11). -/
def Obligations.AppendedProgramStandsAtZero : Prop :=
  ∀ bs : List Byte, bs.length ≤ State.reset.cfg.memMax →
    ∃ m : Memory, State.reset.appendAll bs = some { State.reset with mem := m } ∧
      m.len = bs.length ∧ m.bytes 0 m.len = bs ∧ m.wf

/-- RegisterInterrupt sets its entry, leaves the other entries and everything else alone, and the
last registration wins (60_exceptions.md R110). -/
def Obligations.LastRegistrationWins : Prop :=
  ∀ (i : Byte) (h g : Handler) (s : State),
    (∀ j, (s.registerInterrupt i h).handler j = if j = i then some h else s.handler j) ∧
    (s.registerInterrupt i g).registerInterrupt i h = s.registerInterrupt i h ∧
    ∃ it, s.registerInterrupt i h = { s with it := it }
end

