-- ==== Sys2Proof/Laws/Decode.lean ====
section
/-! SUPPORT. The opcode map, the operand fetches and the Move flags byte: what each can answer. -/

namespace Sys2Proof

open Sys2Proof.Machine

/-! ## The opcode map -/

/-- Every opcode is listed. -/
theorem Opcode.mem_all (k : Opcode) : k ∈ Opcode.all := by cases k <;> decide

/-- What the lookup finds has that byte. -/
theorem byteOf_of_lookup {m : OpcodeMap} {op : Byte} {k : Opcode} (h : m.lookup op = some k) :
    m.byteOf k = op := by
  simpa using List.find?_some h

/-- The lookup finds nothing exactly where no instruction has the byte. -/
theorem lookup_eq_none {m : OpcodeMap} {op : Byte} :
    m.lookup op = none ↔ ∀ k, m.byteOf k ≠ op := by
  simp only [OpcodeMap.lookup, List.find?_eq_none, beq_iff_eq]
  exact ⟨fun h k => h k k.mem_all, fun h k _ => h k⟩

/-- A one-to-one map gives two instructions two bytes. -/
theorem OpcodeMap.Injective.eq {m : OpcodeMap} (hm : m.Injective) {k j : Opcode}
    (h : m.byteOf k = m.byteOf j) : k = j :=
  List.inj_on_of_nodup_map hm k.mem_all j.mem_all h

/-- Under a one-to-one map the lookup undoes the map. -/
theorem lookup_byteOf {m : OpcodeMap} (hm : m.Injective) (k : Opcode) :
    m.lookup (m.byteOf k) = some k := by
  cases h : m.lookup (m.byteOf k) with
  | none => exact absurd rfl (lookup_eq_none.1 h k)
  | some j => rw [hm.eq (byteOf_of_lookup h)]

/-- The default map is one-to-one. -/
theorem default_injective : OpcodeMap.default.Injective := by decide

/-! ## Operand fetches -/

/-- Where a sequence of two computations answered, both did. -/
theorem bind_eq_ok {ε α β : Type} {x : Except ε α} {f : α → Except ε β} {b : β}
    (h : (x >>= f) = .ok b) : ∃ a, x = .ok a ∧ f a = .ok b := by
  cases x with
  | error e => cases h
  | ok a => exact ⟨a, rfl, h⟩

/-- Where a sequence of two computations failed, one of them did. -/
theorem bind_eq_error {ε α β : Type} {x : Except ε α} {f : α → Except ε β} {e : ε}
    (h : (x >>= f) = .error e) : x = .error e ∨ ∃ a, x = .ok a ∧ f a = .error e := by
  cases x with
  | error e' => cases h; exact .inl rfl
  | ok a => exact .inr ⟨a, rfl, h⟩

/-- All that `Fetch(n)` can do (30_encoding.md R50). -/
theorem fetch_cases (n : Nat) (c : Cursor) :
    (n ≤ c.rest.length ∧ fetch n c = .ok (leValue (c.rest.take n),
        { off := c.off + n, rest := c.rest.drop n })) ∨
      (c.rest.length < n ∧ fetch n c = .error (.truncated c.off n)) := by
  by_cases h : n ≤ c.rest.length
  · exact .inl ⟨h, by simp [fetch, h]⟩
  · exact .inr ⟨by omega, by simp [fetch, h]⟩

/-- A fetch takes a field off the front. -/
theorem fetch_append (bs rest : List Byte) (off : Nat) :
    fetch bs.length { off := off, rest := bs ++ rest } =
      .ok (leValue bs, { off := off + bs.length, rest := rest }) := by
  simp [fetch]

/-- A fetch of an encoded value gives it back. -/
theorem fetch_leBytes {n v : Nat} (h : v < 2 ^ (8 * n)) (rest : List Byte) (off : Nat) :
    fetch n { off := off, rest := leBytes n v ++ rest } =
      .ok (v, { off := off + n, rest := rest }) := by
  have := fetch_append (leBytes n v) rest off
  rwa [leBytes_length, leValue_leBytes_of_lt h] at this

/-- Where a fetch answered, the bytes it took stand in front of the rest. -/
theorem fetch_ok {n v : Nat} {c c' : Cursor} (h : fetch n c = .ok (v, c')) :
    ∃ bs, bs.length = n ∧ v = leValue bs ∧ c.rest = bs ++ c'.rest ∧ c'.off = c.off + n := by
  rcases fetch_cases n c with ⟨hn, he⟩ | ⟨_, he⟩
  · rw [he] at h
    cases h
    exact ⟨c.rest.take n, by simp [hn], rfl, by simp, rfl⟩
  · rw [he] at h; cases h

/-- Where a fetch failed, too few bytes remain. -/
theorem fetch_error {n : Nat} {c : Cursor} {e : DecodeError} (h : fetch n c = .error e) :
    c.rest.length < n ∧ e = .truncated c.off n := by
  rcases fetch_cases n c with ⟨_, he⟩ | ⟨hn, he⟩
  · rw [he] at h; cases h
  · rw [he] at h; cases h; exact ⟨hn, rfl⟩

/-- One byte is its own value. -/
theorem fetch_one (b : Byte) (rest : List Byte) (off : Nat) :
    fetch 1 { off := off, rest := b :: rest } = .ok (b.toNat, { off := off + 1, rest := rest }) := by
  simp [fetch]

/-- No byte is left for a fetch of one. -/
theorem fetch_one_nil (off : Nat) :
    fetch 1 { off := off, rest := [] } = .error (.truncated off 1) := by
  simp [fetch]

@[simp] theorem encodeReg_toNat (r : Reg) : (encodeReg r).toNat = r.val := by
  have := r.isLt
  simp only [encodeReg, BitVec.toNat_ofNat]
  omega

/-- A register byte below 16 is that register (30_encoding.md R51). -/
theorem fetchReg_cons {b : Byte} (h : b.toNat < 16) (rest : List Byte) (off : Nat) :
    fetchReg { off := off, rest := b :: rest } =
      .ok (⟨b.toNat, h⟩, { off := off + 1, rest := rest }) := by
  simp [fetchReg, fetch_one, bind, Except.bind, h]

/-- A register byte of 16 or more is refused, whatever follows it (30_encoding.md R51). -/
theorem fetchReg_outOfRange {b : Byte} (h : 16 ≤ b.toNat) (rest : List Byte) (off : Nat) :
    fetchReg { off := off, rest := b :: rest } = .error (.registerIndexOutOfRange b) := by
  simp [fetchReg, fetch_one, bind, Except.bind, Nat.not_lt.2 h]

/-- No byte is left for a register. -/
theorem fetchReg_nil (off : Nat) :
    fetchReg { off := off, rest := [] } = .error (.truncated off 1) := by
  simp [fetchReg, fetch_one_nil, bind, Except.bind]

/-- A fetch of an encoded register gives it back. -/
theorem fetchReg_encodeReg (r : Reg) (rest : List Byte) (off : Nat) :
    fetchReg { off := off, rest := encodeReg r :: rest } =
      .ok (r, { off := off + 1, rest := rest }) := by
  rw [fetchReg_cons (by simp)]
  simp

/-- Where a register fetch answered, the register's byte stands in front of the rest. -/
theorem fetchReg_ok {c c' : Cursor} {r : Reg} (h : fetchReg c = .ok (r, c')) :
    c.rest = encodeReg r :: c'.rest ∧ c'.off = c.off + 1 := by
  obtain ⟨off, rest⟩ := c
  cases rest with
  | nil => rw [fetchReg_nil] at h; cases h
  | cons b rest =>
    by_cases hb : b.toNat < 16
    · rw [fetchReg_cons hb] at h
      cases h
      have he : b = encodeReg ⟨b.toNat, hb⟩ := BitVec.eq_of_toNat_eq (by simp)
      exact ⟨congrArg (· :: rest) he, rfl⟩
    · rw [fetchReg_outOfRange (by omega)] at h; cases h

/-- Why a register fetch fails. -/
theorem fetchReg_error {c : Cursor} {e : DecodeError} (h : fetchReg c = .error e) :
    (c.rest = [] ∧ e = .truncated c.off 1) ∨
      ∃ b rest, c.rest = b :: rest ∧ 16 ≤ b.toNat ∧ e = .registerIndexOutOfRange b := by
  obtain ⟨off, rest⟩ := c
  cases rest with
  | nil => rw [fetchReg_nil] at h; cases h; exact .inl ⟨rfl, rfl⟩
  | cons b rest =>
    by_cases hb : b.toNat < 16
    · rw [fetchReg_cons hb] at h; cases h
    · rw [fetchReg_outOfRange (by omega)] at h
      cases h
      exact .inr ⟨b, rest, rfl, by omega, rfl⟩

/-! ## The Move flags byte -/

/-- The fields fill the byte (30_encoding.md R57). -/
theorem flags_append (F : Byte) : flagsDk F ++ flagsSk F ++ flagsWidth F = F := by
  revert F; decide

@[simp] theorem flagsDk_append (dk sk : BitVec 2) (w : BitVec 4) :
    flagsDk (dk ++ sk ++ w) = dk := by
  revert dk sk w; decide

@[simp] theorem flagsSk_append (dk sk : BitVec 2) (w : BitVec 4) :
    flagsSk (dk ++ sk ++ w) = sk := by
  revert dk sk w; decide

@[simp] theorem flagsWidth_append (dk sk : BitVec 2) (w : BitVec 4) :
    flagsWidth (dk ++ sk ++ w) = w := by
  revert dk sk w; decide

/-- Two operand kinds and a width are legal when both are registers or the width is 1 to 8
(30_encoding.md R60). -/
theorem legalFlags_moveFlags (w : BitVec 4) (src : MovSrc) (dst : MovDst) :
    legalFlags (moveFlags w src dst) =
      ((src.kind == 0b00#2 && dst.kind == 0b00#2) || widthOk w) := by
  simp only [legalFlags, moveFlags, flagsDk_append, flagsSk_append, flagsWidth_append]
  cases src <;> cases dst <;> simp [MovSrc.kind, MovDst.kind]

/-- A well-formed Move has a legal flags byte. -/
theorem legalFlags_of_wellFormed {w : BitVec 4} {src : MovSrc} {dst : MovDst}
    (h : movWellFormed w src dst = true) : legalFlags (moveFlags w src dst) = true := by
  rw [legalFlags_moveFlags]
  cases src <;> cases dst <;> simp_all [movWellFormed, MovSrc.kind, MovDst.kind]

/-- A width the check accepts is 1 to 8. -/
theorem widthOk_iff {w : BitVec 4} : widthOk w = true ↔ 1 ≤ w.toNat ∧ w.toNat ≤ 8 := by
  simp [widthOk]

/-- A value the check accepts fits in the field. -/
theorem fitsBytes_iff {w : BitVec 4} {v : Word} :
    fitsBytes w v = true ↔ v.toNat < 2 ^ (8 * w.toNat) := by
  simp [fitsBytes]

end Sys2Proof
end

