-- ==== Sys2Proof/Laws/Sparse.lean ====
section
/-! SUPPORT. What the sparse lists do: read after write, and the canonical order is kept. -/

namespace Sys2Proof.Machine

variable {α : Type}

@[simp] theorem sparseFind_nil (k : Nat) : sparseFind k ([] : List (Nat × α)) = none := rfl

@[simp] theorem sparseFind_cons (k j : Nat) (v : α) (l : List (Nat × α)) :
    sparseFind k ((j, v) :: l) = if k = j then some v else sparseFind k l := by
  simp only [sparseFind, eq_comm]

/-- A read after a put gives the value put at its key, and the old value at every other key. -/
theorem sparseFind_put (k j : Nat) (v : α) (l : List (Nat × α)) :
    sparseFind j (sparsePut k v l) = if j = k then some v else sparseFind j l := by
  induction l with
  | nil => simp [sparsePut]
  | cons c l ih =>
    obtain ⟨i, u⟩ := c
    simp only [sparsePut]
    split
    · simp
    · split
      · subst_vars
        simp only [sparseFind_cons]
        split <;> rfl
      · simp only [sparseFind_cons, ih]
        split
        · subst_vars
          split
          · subst_vars; contradiction
          · rfl
        · rfl

/-- A read after an erase gives nothing at its key, and the old value at every other key. -/
theorem sparseFind_erase (k j : Nat) (l : List (Nat × α)) :
    sparseFind j (sparseErase k l) = if j = k then none else sparseFind j l := by
  induction l with
  | nil => simp [sparseErase]
  | cons c l ih =>
    obtain ⟨i, u⟩ := c
    by_cases hik : i = k
    · have he : sparseErase k ((i, u) :: l) = sparseErase k l := by simp [sparseErase, hik]
      rw [he, ih, sparseFind_cons, hik]
      split <;> rfl
    · have he : sparseErase k ((i, u) :: l) = (i, u) :: sparseErase k l := by
        simp [sparseErase, hik]
      rw [he, sparseFind_cons, sparseFind_cons, ih]
      split
      · subst_vars; simp [hik]
      · rfl

/-- The entries after a put: the new one, or one of the old. -/
theorem mem_sparsePut {k : Nat} {v : α} {l : List (Nat × α)} {c : Nat × α}
    (h : c ∈ sparsePut k v l) : c = (k, v) ∨ c ∈ l := by
  induction l with
  | nil => simpa [sparsePut] using h
  | cons d l ih =>
    obtain ⟨i, u⟩ := d
    simp only [sparsePut] at h
    split at h
    · simpa using h
    · split at h
      · rcases List.mem_cons.1 h with h | h
        · exact .inl h
        · exact .inr (List.mem_cons_of_mem _ h)
      · rcases List.mem_cons.1 h with h | h
        · exact .inr (h ▸ List.mem_cons_self)
        · exact (ih h).imp id (List.mem_cons_of_mem _)

/-- A put keeps the keys strictly rising. -/
theorem sparsePut_sorted (k : Nat) (v : α) {l : List (Nat × α)} (h : SparseSorted l) :
    SparseSorted (sparsePut k v l) := by
  induction l with
  | nil => simp [sparsePut]
  | cons d l ih =>
    obtain ⟨i, u⟩ := d
    have ht := (List.pairwise_cons.1 h).2
    have hd := (List.pairwise_cons.1 h).1
    simp only [sparsePut]
    split
    · rename_i hlt
      refine List.pairwise_cons.2 ⟨fun c hc => ?_, h⟩
      rcases List.mem_cons.1 hc with rfl | hc
      · exact hlt
      · exact lt_trans hlt (hd c hc)
    · split
      · rename_i heq
        subst heq
        exact List.pairwise_cons.2 ⟨hd, ht⟩
      · refine List.pairwise_cons.2 ⟨fun c hc => ?_, ih ht⟩
        rcases mem_sparsePut hc with rfl | hc
        · show i < k
          omega
        · exact hd c hc

/-- The entries after an erase are old ones, none with its key. -/
theorem mem_sparseErase {k : Nat} {l : List (Nat × α)} {c : Nat × α} :
    c ∈ sparseErase k l ↔ c ∈ l ∧ c.1 ≠ k := by
  simp [sparseErase]

/-- An erase keeps the keys strictly rising. -/
theorem sparseErase_sorted (k : Nat) {l : List (Nat × α)} (h : SparseSorted l) :
    SparseSorted (sparseErase k l) :=
  List.Pairwise.filter _ h

/-- In a sorted list a listed pair is what a read of its key finds. -/
theorem sparseFind_of_mem {l : List (Nat × α)} (h : SparseSorted l) {k : Nat} {v : α}
    (hm : (k, v) ∈ l) : sparseFind k l = some v := by
  induction l with
  | nil => cases hm
  | cons d l ih =>
    obtain ⟨i, u⟩ := d
    have hd := (List.pairwise_cons.1 h).1
    rcases List.mem_cons.1 hm with he | hm'
    · cases he; simp [sparseFind]
    · have : i < k := hd _ hm'
      simp only [sparseFind, Nat.ne_of_lt this, if_false]
      exact ih (List.pairwise_cons.1 h).2 hm'

/-- What a read finds is listed. -/
theorem mem_of_sparseFind {l : List (Nat × α)} {k : Nat} {v : α}
    (h : sparseFind k l = some v) : (k, v) ∈ l := by
  induction l with
  | nil => cases h
  | cons d l ih =>
    obtain ⟨i, u⟩ := d
    simp only [sparseFind] at h
    split at h
    · subst_vars; cases h; simp
    · exact List.mem_cons_of_mem _ (ih h)

/-- A second put at one key replaces the first. -/
theorem sparsePut_put (k : Nat) (u v : α) (l : List (Nat × α)) :
    sparsePut k v (sparsePut k u l) = sparsePut k v l := by
  induction l with
  | nil => simp [sparsePut]
  | cons d l ih =>
    obtain ⟨i, w⟩ := d
    simp only [sparsePut]
    split
    · simp [sparsePut]
    · split
      · subst_vars; simp [sparsePut]
      · rename_i h1 h2
        simp [sparsePut, h1, h2, ih]

/-- Two canonical lists that list the same values are equal. -/
theorem sparse_ext : ∀ {l l' : List (Nat × α)}, SparseSorted l → SparseSorted l' →
    (∀ k, sparseFind k l = sparseFind k l') → l = l' := by
  intro l
  induction l with
  | nil =>
    intro l' _ h' he
    cases l' with
    | nil => rfl
    | cons c l' => have := he c.1; obtain ⟨a, b⟩ := c; simp at this
  | cons c l ih =>
    intro l' h h' he
    cases l' with
    | nil => have := he c.1; obtain ⟨a, b⟩ := c; simp at this
    | cons d l' =>
      have hc := List.pairwise_cons.1 h
      have hd := List.pairwise_cons.1 h'
      have none_lt : ∀ {k} {m : List (Nat × α)}, (∀ e ∈ m, k < e.1) → sparseFind k m = none := by
        intro k m hm
        cases hs : sparseFind k m with
        | none => rfl
        | some v => have := hm _ (mem_of_sparseFind hs); simp at this
      have hk : c.1 = d.1 := by
        rcases lt_trichotomy c.1 d.1 with hlt | heq | hgt
        · have := he c.1
          rw [none_lt (m := d :: l')] at this
          · obtain ⟨a, b⟩ := c; simp at this
          · intro e hm
            rcases List.mem_cons.1 hm with rfl | hm
            · exact hlt
            · exact lt_trans hlt (hd.1 e hm)
        · exact heq
        · have := he d.1
          rw [none_lt (m := c :: l)] at this
          · obtain ⟨a, b⟩ := d; simp at this
          · intro e hm
            rcases List.mem_cons.1 hm with rfl | hm
            · exact hgt
            · exact lt_trans hgt (hc.1 e hm)
      obtain ⟨a, b⟩ := c
      obtain ⟨a', b'⟩ := d
      simp only at hk
      subst hk
      have h1 := he a
      simp at h1
      subst h1
      congr 1
      refine ih hc.2 hd.2 fun k => ?_
      have h2 := he k
      simp only [sparseFind_cons] at h2
      by_cases hka : a = k
      · subst hka; rw [none_lt hc.1, none_lt hd.1]
      · rwa [if_neg (Ne.symm hka), if_neg (Ne.symm hka)] at h2

end Sys2Proof.Machine
end

