-- ==== Sys2Proof/Laws/Memory.lean ====
section
/-! SUPPORT. Memory: read after write, the frame of a write, and the canonical form that every
operation keeps (20_memory.md R30 to R32, R38). -/

namespace Sys2Proof.Machine

/-! ## One byte -/

@[simp] theorem setByte_len (m : Memory) (a : Nat) (b : Byte) : (m.setByte a b).len = m.len := rfl

/-- Writing a byte sets it and leaves every other byte alone. -/
theorem byte_setByte (m : Memory) (a j : Nat) (b : Byte) :
    (m.setByte a b).byte j = if j = a then b else m.byte j := by
  unfold Memory.byte Memory.setByte
  by_cases hb : b = 0#8
  · by_cases h : j = a <;> simp [hb, sparseFind_erase, h]
  · by_cases h : j = a <;> simp [hb, sparseFind_put, h]

/-- A byte's cells depend on the cells alone. -/
@[simp] theorem byte_withLen (m : Memory) (n a : Nat) :
    ({ m with len := n } : Memory).byte a = m.byte a := rfl

/-- Writing a byte below the length keeps the canonical form. -/
theorem setByte_wf {m : Memory} (h : m.wf) {a : Nat} (ha : a < m.len) (b : Byte) :
    (m.setByte a b).wf := by
  obtain ⟨hs, hc⟩ := h
  by_cases hb : b = 0#8
  · refine ⟨?_, ?_⟩
    · simpa [Memory.setByte, hb] using sparseErase_sorted a hs
    · intro c hm
      have hm' : c ∈ sparseErase a m.cells := by simpa [Memory.setByte, hb] using hm
      exact hc c (mem_sparseErase.1 hm').1
  · refine ⟨?_, ?_⟩
    · simpa [Memory.setByte, hb] using sparsePut_sorted a b hs
    · intro c hm
      have hm' : c ∈ sparsePut a b m.cells := by simpa [Memory.setByte, hb] using hm
      rcases mem_sparsePut hm' with rfl | hm'
      · exact ⟨hb, ha⟩
      · exact hc c hm'

/-! ## Byte sequences -/

@[simp] theorem bytes_zero (m : Memory) (a : Nat) : m.bytes a 0 = [] := rfl

theorem bytes_succ (m : Memory) (a n : Nat) :
    m.bytes a (n + 1) = m.byte a :: m.bytes (a + 1) n := rfl

@[simp] theorem bytes_length (m : Memory) (a n : Nat) : (m.bytes a n).length = n := by
  induction n generalizing a with
  | zero => rfl
  | succ n ih => simp [bytes_succ, ih]

theorem bytes_getElem (m : Memory) (a n i : Nat) (h : i < (m.bytes a n).length) :
    (m.bytes a n)[i] = m.byte (a + i) := by
  induction n generalizing a i with
  | zero => simp at h
  | succ n ih =>
    cases i with
    | zero => simp [bytes_succ]
    | succ i =>
      simp only [bytes_succ, List.getElem_cons_succ]
      rw [ih (a + 1) i (by simpa using h), Nat.add_assoc, Nat.add_comm 1 i]

/-- A read of bytes splits where one likes. -/
theorem bytes_add (m : Memory) (a n k : Nat) :
    m.bytes a (n + k) = m.bytes a n ++ m.bytes (a + n) k := by
  induction n generalizing a with
  | zero => simp
  | succ n ih =>
    rw [Nat.succ_add]
    simp only [bytes_succ, ih, List.cons_append, Nat.add_assoc, Nat.add_comm 1 n]

theorem bytes_take (m : Memory) (a : Nat) {n k : Nat} (h : k ≤ n) :
    (m.bytes a n).take k = m.bytes a k := by
  obtain ⟨j, rfl⟩ := Nat.exists_eq_add_of_le h
  simp [bytes_add]

theorem bytes_drop (m : Memory) (a : Nat) {n k : Nat} (h : k ≤ n) :
    (m.bytes a n).drop k = m.bytes (a + k) (n - k) := by
  obtain ⟨j, rfl⟩ := Nat.exists_eq_add_of_le h
  simp [bytes_add]

/-- Two memories with the same bytes in a range read the same sequence there. -/
theorem bytes_congr {m m' : Memory} {a n : Nat}
    (h : ∀ i < n, m'.byte (a + i) = m.byte (a + i)) : m'.bytes a n = m.bytes a n := by
  apply List.ext_getElem (by simp)
  intro i h1 _
  rw [bytes_getElem, bytes_getElem]
  exact h i (by simpa using h1)

/-- The value of a range of bytes is their weighted sum (00_scope.md R11). -/
theorem leValue_bytes (m : Memory) (a n : Nat) :
    leValue (m.bytes a n) = ∑ j ∈ Finset.range n, (m.byte (a + j)).toNat * 2 ^ (8 * j) := by
  induction n generalizing a with
  | zero => simp
  | succ n ih =>
    rw [bytes_succ, leValue_cons, ih, Finset.sum_range_succ', Finset.mul_sum, Nat.add_comm]
    congr 1
    · refine Finset.sum_congr rfl fun j _ => ?_
      rw [Nat.mul_add, Nat.pow_add, show a + 1 + j = a + (j + 1) by omega]
      ring
    · simp

/-! ## Writing a sequence -/

@[simp] theorem writeBytes_nil (m : Memory) (a : Nat) : m.writeBytes a [] = m := rfl

@[simp] theorem writeBytes_cons (m : Memory) (a : Nat) (b : Byte) (bs : List Byte) :
    m.writeBytes a (b :: bs) = (m.setByte a b).writeBytes (a + 1) bs := rfl

@[simp] theorem writeBytes_len (m : Memory) (a : Nat) (bs : List Byte) :
    (m.writeBytes a bs).len = m.len := by
  induction bs generalizing m a with
  | nil => rfl
  | cons b bs ih => simp [ih]

/-- After a write the written range holds the bytes written, and every other byte is as before. -/
theorem byte_writeBytes (m : Memory) (a j : Nat) (bs : List Byte) :
    (m.writeBytes a bs).byte j =
      if a ≤ j ∧ j < a + bs.length then bs.getD (j - a) 0#8 else m.byte j := by
  induction bs generalizing m a with
  | nil =>
    have h : ¬ (a ≤ j ∧ j < a + ([] : List Byte).length) := by simp
    rw [writeBytes_nil, if_neg h]
  | cons b bs ih =>
    rw [writeBytes_cons, ih, List.length_cons, byte_setByte]
    by_cases h : a + 1 ≤ j ∧ j < a + 1 + bs.length
    · have h' : a ≤ j ∧ j < a + (bs.length + 1) := by omega
      have hj : j - a = (j - (a + 1)) + 1 := by omega
      rw [if_pos h, if_pos h', hj, List.getD_cons_succ]
    · rw [if_neg h]
      by_cases hj : j = a
      · subst hj; simp
      · have h' : ¬ (a ≤ j ∧ j < a + (bs.length + 1)) := by omega
        rw [if_neg hj, if_neg h']

/-- Bytes outside the written range are as before. -/
theorem byte_writeBytes_of_lt {m : Memory} {a j : Nat} {bs : List Byte}
    (h : j < a ∨ a + bs.length ≤ j) : (m.writeBytes a bs).byte j = m.byte j := by
  rw [byte_writeBytes, if_neg (by omega)]

/-- A written sequence reads back. -/
theorem bytes_writeBytes (m : Memory) (a : Nat) (bs : List Byte) :
    (m.writeBytes a bs).bytes a bs.length = bs := by
  apply List.ext_getElem (by simp)
  intro i h1 h2
  rw [bytes_getElem, byte_writeBytes, if_pos (by omega), Nat.add_sub_cancel_left,
    List.getD_eq_getElem _ _ h2]

/-- A write below the length keeps the canonical form. -/
theorem writeBytes_wf {m : Memory} (h : m.wf) {a : Nat} {bs : List Byte}
    (ha : a + bs.length ≤ m.len) : (m.writeBytes a bs).wf := by
  induction bs generalizing m a with
  | nil => exact h
  | cons b bs ih =>
    rw [List.length_cons] at ha
    exact ih (setByte_wf h (by omega) b) (by rw [setByte_len]; omega)

/-! ## The bounds-checked primitives -/

/-- All that `MemRead` can do (20_memory.md R30, R31). -/
theorem read_cases (m : Memory) (a n : Nat) :
    (a + n ≤ m.len ∧ m.read a n = .ok (BitVec.ofNat 64 (leValue (m.bytes a n)))) ∨
      (¬ a + n ≤ m.len ∧ m.read a n = .error (.memoryOutOfBounds a n)) := by
  by_cases h : a + n ≤ m.len
  · exact .inl ⟨h, by simp [Memory.read, Memory.InBounds, h]⟩
  · exact .inr ⟨h, by simp [Memory.read, Memory.InBounds, h]⟩

/-- All that `MemWrite` can do (20_memory.md R30, R32). -/
theorem write_cases (m : Memory) (a n : Nat) (v : Word) :
    (a + n ≤ m.len ∧ m.write a n v = .ok (m.writeBytes a (leBytes n v.toNat))) ∨
      (¬ a + n ≤ m.len ∧ m.write a n v = .error (.memoryOutOfBounds a n)) := by
  by_cases h : a + n ≤ m.len
  · exact .inl ⟨h, by simp [Memory.write, Memory.InBounds, h]⟩
  · exact .inr ⟨h, by simp [Memory.write, Memory.InBounds, h]⟩

theorem read_of_inBounds {m : Memory} {a n : Nat} (h : a + n ≤ m.len) :
    m.read a n = .ok (BitVec.ofNat 64 (leValue (m.bytes a n))) := by
  simp [Memory.read, Memory.InBounds, h]

theorem write_of_inBounds {m : Memory} {a n : Nat} (h : a + n ≤ m.len) (v : Word) :
    m.write a n v = .ok (m.writeBytes a (leBytes n v.toNat)) := by
  simp [Memory.write, Memory.InBounds, h]

theorem read_of_not_inBounds {m : Memory} {a n : Nat} (h : ¬ a + n ≤ m.len) :
    m.read a n = .error (.memoryOutOfBounds a n) := by
  simp [Memory.read, Memory.InBounds, h]

theorem write_of_not_inBounds {m : Memory} {a n : Nat} (h : ¬ a + n ≤ m.len) (v : Word) :
    m.write a n v = .error (.memoryOutOfBounds a n) := by
  simp [Memory.write, Memory.InBounds, h]

/-! ## Growing -/

@[simp] theorem append_len (m : Memory) (b : Byte) : (m.append b).len = m.len + 1 := rfl

/-- Append sets the byte past the end and leaves the others (20_memory.md R38). -/
theorem byte_append (m : Memory) (b : Byte) (j : Nat) :
    (m.append b).byte j = if j = m.len then b else m.byte j := by
  rw [Memory.append, byte_setByte, byte_withLen]

/-- Append keeps the canonical form. -/
theorem append_wf {m : Memory} (h : m.wf) (b : Byte) : (m.append b).wf := by
  apply setByte_wf _ (by simp)
  exact ⟨h.1, fun c hc => ⟨(h.2 c hc).1, Nat.lt_succ_of_lt (h.2 c hc).2⟩⟩

end Sys2Proof.Machine
end

