-- ==== Sys2Proof/Laws/State.lean ====
section
/-! SUPPORT. One lemma per field of State per update, so that no proof unfolds a record update. -/

namespace Sys2Proof.Machine

/-! ## setReg -/

@[simp] theorem setReg_mem (s : State) (r : Reg) (v : Word) : (s.setReg r v).mem = s.mem := rfl
@[simp] theorem setReg_x (s : State) (r : Reg) (v : Word) : (s.setReg r v).x = s.x.set r v := rfl
@[simp] theorem setReg_pc (s : State) (r : Reg) (v : Word) : (s.setReg r v).pc = s.pc := rfl
@[simp] theorem setReg_cs (s : State) (r : Reg) (v : Word) : (s.setReg r v).cs = s.cs := rfl
@[simp] theorem setReg_cl (s : State) (r : Reg) (v : Word) : (s.setReg r v).cl = s.cl := rfl
@[simp] theorem setReg_status (s : State) (r : Reg) (v : Word) :
    (s.setReg r v).status = s.status := rfl
@[simp] theorem setReg_fr (s : State) (r : Reg) (v : Word) : (s.setReg r v).fr = s.fr := rfl
@[simp] theorem setReg_it (s : State) (r : Reg) (v : Word) : (s.setReg r v).it = s.it := rfl
@[simp] theorem setReg_cfg (s : State) (r : Reg) (v : Word) : (s.setReg r v).cfg = s.cfg := rfl
@[simp] theorem setReg_result (s : State) (r : Reg) (v : Word) :
    (s.setReg r v).result = s.result := rfl
@[simp] theorem setReg_signals (s : State) (r : Reg) (v : Word) :
    (s.setReg r v).signals = s.signals := rfl
@[simp] theorem setReg_loading (s : State) (r : Reg) (v : Word) :
    (s.setReg r v).loading = s.loading := rfl
@[simp] theorem setReg_draws (s : State) (r : Reg) (v : Word) :
    (s.setReg r v).draws = s.draws := rfl

/-! ## advance -/

@[simp] theorem advance_mem (s : State) (n : Nat) : (s.advance n).mem = s.mem := rfl
@[simp] theorem advance_x (s : State) (n : Nat) : (s.advance n).x = s.x := rfl
@[simp] theorem advance_pc (s : State) (n : Nat) :
    (s.advance n).pc = s.pc + BitVec.ofNat 64 n := rfl
@[simp] theorem advance_cs (s : State) (n : Nat) : (s.advance n).cs = s.cs := rfl
@[simp] theorem advance_cl (s : State) (n : Nat) : (s.advance n).cl = s.cl := rfl
@[simp] theorem advance_status (s : State) (n : Nat) : (s.advance n).status = s.status := rfl
@[simp] theorem advance_fr (s : State) (n : Nat) : (s.advance n).fr = s.fr := rfl
@[simp] theorem advance_it (s : State) (n : Nat) : (s.advance n).it = s.it := rfl
@[simp] theorem advance_cfg (s : State) (n : Nat) : (s.advance n).cfg = s.cfg := rfl
@[simp] theorem advance_result (s : State) (n : Nat) : (s.advance n).result = s.result := rfl
@[simp] theorem advance_signals (s : State) (n : Nat) : (s.advance n).signals = s.signals := rfl
@[simp] theorem advance_loading (s : State) (n : Nat) : (s.advance n).loading = s.loading := rfl
@[simp] theorem advance_draws (s : State) (n : Nat) : (s.advance n).draws = s.draws := rfl

/-! ## jump -/

@[simp] theorem jump_mem (s : State) (a : Word) : (s.jump a).mem = s.mem := rfl
@[simp] theorem jump_x (s : State) (a : Word) : (s.jump a).x = s.x := rfl
@[simp] theorem jump_pc (s : State) (a : Word) : (s.jump a).pc = a := rfl
@[simp] theorem jump_cs (s : State) (a : Word) : (s.jump a).cs = s.cs := rfl
@[simp] theorem jump_cl (s : State) (a : Word) : (s.jump a).cl = s.cl := rfl
@[simp] theorem jump_status (s : State) (a : Word) : (s.jump a).status = s.status := rfl
@[simp] theorem jump_fr (s : State) (a : Word) : (s.jump a).fr = s.fr := rfl
@[simp] theorem jump_it (s : State) (a : Word) : (s.jump a).it = s.it := rfl
@[simp] theorem jump_cfg (s : State) (a : Word) : (s.jump a).cfg = s.cfg := rfl
@[simp] theorem jump_result (s : State) (a : Word) : (s.jump a).result = s.result := rfl
@[simp] theorem jump_signals (s : State) (a : Word) : (s.jump a).signals = s.signals := rfl
@[simp] theorem jump_loading (s : State) (a : Word) : (s.jump a).loading = s.loading := rfl
@[simp] theorem jump_draws (s : State) (a : Word) : (s.jump a).draws = s.draws := rfl

/-! ## halt -/

@[simp] theorem halt_mem (s : State) : s.halt.mem = s.mem := rfl
@[simp] theorem halt_x (s : State) : s.halt.x = s.x := rfl
@[simp] theorem halt_pc (s : State) : s.halt.pc = s.pc := rfl
@[simp] theorem halt_cs (s : State) : s.halt.cs = s.cs := rfl
@[simp] theorem halt_cl (s : State) : s.halt.cl = s.cl := rfl
@[simp] theorem halt_status (s : State) : s.halt.status = .halted := rfl
@[simp] theorem halt_fr (s : State) : s.halt.fr = s.fr := rfl
@[simp] theorem halt_it (s : State) : s.halt.it = s.it := rfl
@[simp] theorem halt_cfg (s : State) : s.halt.cfg = s.cfg := rfl
@[simp] theorem halt_result (s : State) : s.halt.result = s.result := rfl
@[simp] theorem halt_signals (s : State) : s.halt.signals = s.signals := rfl
@[simp] theorem halt_loading (s : State) : s.halt.loading = s.loading := rfl
@[simp] theorem halt_draws (s : State) : s.halt.draws = s.draws := rfl

/-! ## latch -/

@[simp] theorem latch_mem (s : State) (v w : Word) : (s.latch v w).mem = s.mem := rfl
@[simp] theorem latch_x (s : State) (v w : Word) : (s.latch v w).x = s.x := rfl
@[simp] theorem latch_pc (s : State) (v w : Word) : (s.latch v w).pc = s.pc := rfl
@[simp] theorem latch_cs (s : State) (v w : Word) : (s.latch v w).cs = s.cs := rfl
@[simp] theorem latch_cl (s : State) (v w : Word) : (s.latch v w).cl = { a := v, b := w } := rfl
@[simp] theorem latch_status (s : State) (v w : Word) : (s.latch v w).status = s.status := rfl
@[simp] theorem latch_fr (s : State) (v w : Word) : (s.latch v w).fr = s.fr := rfl
@[simp] theorem latch_it (s : State) (v w : Word) : (s.latch v w).it = s.it := rfl
@[simp] theorem latch_cfg (s : State) (v w : Word) : (s.latch v w).cfg = s.cfg := rfl
@[simp] theorem latch_result (s : State) (v w : Word) : (s.latch v w).result = s.result := rfl
@[simp] theorem latch_signals (s : State) (v w : Word) : (s.latch v w).signals = s.signals := rfl
@[simp] theorem latch_loading (s : State) (v w : Word) : (s.latch v w).loading = s.loading := rfl
@[simp] theorem latch_draws (s : State) (v w : Word) : (s.latch v w).draws = s.draws := rfl

/-! ## signal -/

@[simp] theorem signal_mem (s : State) (g : Signal) : (s.signal g).mem = s.mem := rfl
@[simp] theorem signal_x (s : State) (g : Signal) : (s.signal g).x = s.x := rfl
@[simp] theorem signal_pc (s : State) (g : Signal) : (s.signal g).pc = s.pc := rfl
@[simp] theorem signal_cs (s : State) (g : Signal) : (s.signal g).cs = s.cs := rfl
@[simp] theorem signal_cl (s : State) (g : Signal) : (s.signal g).cl = s.cl := rfl
@[simp] theorem signal_status (s : State) (g : Signal) : (s.signal g).status = s.status := rfl
@[simp] theorem signal_fr (s : State) (g : Signal) : (s.signal g).fr = s.fr := rfl
@[simp] theorem signal_it (s : State) (g : Signal) : (s.signal g).it = s.it := rfl
@[simp] theorem signal_cfg (s : State) (g : Signal) : (s.signal g).cfg = s.cfg := rfl
@[simp] theorem signal_result (s : State) (g : Signal) : (s.signal g).result = s.result := rfl
@[simp] theorem signal_signals (s : State) (g : Signal) :
    (s.signal g).signals = s.signals ++ [g] := rfl
@[simp] theorem signal_loading (s : State) (g : Signal) : (s.signal g).loading = s.loading := rfl
@[simp] theorem signal_draws (s : State) (g : Signal) : (s.signal g).draws = s.draws := rfl

/-! ## raise -/

@[simp] theorem raise_mem (s : State) (a : Word) (c : FaultCause) : (s.raise a c).mem = s.mem := rfl
@[simp] theorem raise_x (s : State) (a : Word) (c : FaultCause) : (s.raise a c).x = s.x := rfl
@[simp] theorem raise_pc (s : State) (a : Word) (c : FaultCause) : (s.raise a c).pc = a := rfl
@[simp] theorem raise_cs (s : State) (a : Word) (c : FaultCause) : (s.raise a c).cs = s.cs := rfl
@[simp] theorem raise_cl (s : State) (a : Word) (c : FaultCause) : (s.raise a c).cl = s.cl := rfl
@[simp] theorem raise_status (s : State) (a : Word) (c : FaultCause) :
    (s.raise a c).status = .halted := rfl
@[simp] theorem raise_fr (s : State) (a : Word) (c : FaultCause) :
    (s.raise a c).fr = some (c.record a) := rfl
@[simp] theorem raise_it (s : State) (a : Word) (c : FaultCause) : (s.raise a c).it = s.it := rfl
@[simp] theorem raise_cfg (s : State) (a : Word) (c : FaultCause) : (s.raise a c).cfg = s.cfg := rfl
@[simp] theorem raise_result (s : State) (a : Word) (c : FaultCause) :
    (s.raise a c).result = some (.faulted c.code) := rfl
@[simp] theorem raise_signals (s : State) (a : Word) (c : FaultCause) :
    (s.raise a c).signals = s.signals := rfl
@[simp] theorem raise_loading (s : State) (a : Word) (c : FaultCause) :
    (s.raise a c).loading = s.loading := rfl
@[simp] theorem raise_draws (s : State) (a : Word) (c : FaultCause) :
    (s.raise a c).draws = s.draws := rfl

/-! ## beginStep -/

@[simp] theorem beginStep_mem (s : State) : s.beginStep.mem = s.mem := rfl
@[simp] theorem beginStep_x (s : State) : s.beginStep.x = s.x := rfl
@[simp] theorem beginStep_pc (s : State) : s.beginStep.pc = s.pc := rfl
@[simp] theorem beginStep_cs (s : State) : s.beginStep.cs = s.cs := rfl
@[simp] theorem beginStep_cl (s : State) : s.beginStep.cl = s.cl := rfl
@[simp] theorem beginStep_status (s : State) : s.beginStep.status = s.status := rfl
@[simp] theorem beginStep_fr (s : State) : s.beginStep.fr = s.fr := rfl
@[simp] theorem beginStep_it (s : State) : s.beginStep.it = s.it := rfl
@[simp] theorem beginStep_cfg (s : State) : s.beginStep.cfg = s.cfg := rfl
@[simp] theorem beginStep_result (s : State) : s.beginStep.result = some .completed := rfl
@[simp] theorem beginStep_signals (s : State) : s.beginStep.signals = [] := rfl
@[simp] theorem beginStep_loading (s : State) : s.beginStep.loading = false := rfl
@[simp] theorem beginStep_draws (s : State) : s.beginStep.draws = s.draws := rfl

/-! ## notRunning -/

@[simp] theorem notRunning_mem (s : State) : s.notRunning.mem = s.mem := rfl
@[simp] theorem notRunning_x (s : State) : s.notRunning.x = s.x := rfl
@[simp] theorem notRunning_pc (s : State) : s.notRunning.pc = s.pc := rfl
@[simp] theorem notRunning_cs (s : State) : s.notRunning.cs = s.cs := rfl
@[simp] theorem notRunning_cl (s : State) : s.notRunning.cl = s.cl := rfl
@[simp] theorem notRunning_status (s : State) : s.notRunning.status = s.status := rfl
@[simp] theorem notRunning_fr (s : State) : s.notRunning.fr = s.fr := rfl
@[simp] theorem notRunning_it (s : State) : s.notRunning.it = s.it := rfl
@[simp] theorem notRunning_cfg (s : State) : s.notRunning.cfg = s.cfg := rfl
@[simp] theorem notRunning_result (s : State) : s.notRunning.result = some .notRunning := rfl
@[simp] theorem notRunning_signals (s : State) : s.notRunning.signals = [] := rfl
@[simp] theorem notRunning_loading (s : State) : s.notRunning.loading = false := rfl
@[simp] theorem notRunning_draws (s : State) : s.notRunning.draws = s.draws := rfl

/-! ## deadEnd -/

@[simp] theorem deadEnd_mem (s : State) : s.deadEnd.mem = s.mem := rfl
@[simp] theorem deadEnd_x (s : State) : s.deadEnd.x = s.x := rfl
@[simp] theorem deadEnd_pc (s : State) : s.deadEnd.pc = s.pc := rfl
@[simp] theorem deadEnd_cs (s : State) : s.deadEnd.cs = s.cs := rfl
@[simp] theorem deadEnd_cl (s : State) : s.deadEnd.cl = s.cl := rfl
@[simp] theorem deadEnd_status (s : State) : s.deadEnd.status = .halted := rfl
@[simp] theorem deadEnd_fr (s : State) : s.deadEnd.fr = s.fr := rfl
@[simp] theorem deadEnd_it (s : State) : s.deadEnd.it = s.it := rfl
@[simp] theorem deadEnd_cfg (s : State) : s.deadEnd.cfg = s.cfg := rfl
@[simp] theorem deadEnd_result (s : State) : s.deadEnd.result = some .deadEnd := rfl
@[simp] theorem deadEnd_signals (s : State) : s.deadEnd.signals = [.deadEnd s.pc] := rfl
@[simp] theorem deadEnd_loading (s : State) : s.deadEnd.loading = false := rfl
@[simp] theorem deadEnd_draws (s : State) : s.deadEnd.draws = s.draws := rfl

/-! ## withView -/

@[simp] theorem withView_mem (s : State) (v : HostView) : (s.withView v).mem = v.mem := rfl
@[simp] theorem withView_x (s : State) (v : HostView) : (s.withView v).x = v.x := rfl
@[simp] theorem withView_pc (s : State) (v : HostView) : (s.withView v).pc = v.pc := rfl
@[simp] theorem withView_cs (s : State) (v : HostView) : (s.withView v).cs = v.cs := rfl
@[simp] theorem withView_cl (s : State) (v : HostView) : (s.withView v).cl = v.cl := rfl
@[simp] theorem withView_status (s : State) (v : HostView) : (s.withView v).status = v.status := rfl
@[simp] theorem withView_fr (s : State) (v : HostView) : (s.withView v).fr = s.fr := rfl
@[simp] theorem withView_it (s : State) (v : HostView) : (s.withView v).it = v.it := rfl
@[simp] theorem withView_cfg (s : State) (v : HostView) : (s.withView v).cfg = s.cfg := rfl
@[simp] theorem withView_result (s : State) (v : HostView) : (s.withView v).result = s.result := rfl
@[simp] theorem withView_signals (s : State) (v : HostView) :
    (s.withView v).signals = s.signals := rfl
@[simp] theorem withView_loading (s : State) (v : HostView) :
    (s.withView v).loading = s.loading := rfl
@[simp] theorem withView_draws (s : State) (v : HostView) : (s.withView v).draws = s.draws := rfl

/-! ## loadValue -/

@[simp] theorem loadValue_mem (s : State) (n : Nat) (d : Reg) (v : Word) :
    (s.loadValue n d v).mem = s.mem := rfl
@[simp] theorem loadValue_x (s : State) (n : Nat) (d : Reg) (v : Word) :
    (s.loadValue n d v).x = s.x.set d v := rfl
@[simp] theorem loadValue_pc (s : State) (n : Nat) (d : Reg) (v : Word) :
    (s.loadValue n d v).pc = s.pc + BitVec.ofNat 64 (n + 2) := rfl
@[simp] theorem loadValue_cs (s : State) (n : Nat) (d : Reg) (v : Word) :
    (s.loadValue n d v).cs = s.cs := rfl
@[simp] theorem loadValue_cl (s : State) (n : Nat) (d : Reg) (v : Word) :
    (s.loadValue n d v).cl = s.cl := rfl
@[simp] theorem loadValue_status (s : State) (n : Nat) (d : Reg) (v : Word) :
    (s.loadValue n d v).status = s.status := rfl
@[simp] theorem loadValue_fr (s : State) (n : Nat) (d : Reg) (v : Word) :
    (s.loadValue n d v).fr = s.fr := rfl
@[simp] theorem loadValue_it (s : State) (n : Nat) (d : Reg) (v : Word) :
    (s.loadValue n d v).it = s.it := rfl
@[simp] theorem loadValue_cfg (s : State) (n : Nat) (d : Reg) (v : Word) :
    (s.loadValue n d v).cfg = s.cfg := rfl
@[simp] theorem loadValue_result (s : State) (n : Nat) (d : Reg) (v : Word) :
    (s.loadValue n d v).result = s.result := rfl
@[simp] theorem loadValue_signals (s : State) (n : Nat) (d : Reg) (v : Word) :
    (s.loadValue n d v).signals = s.signals := rfl
@[simp] theorem loadValue_loading (s : State) (n : Nat) (d : Reg) (v : Word) :
    (s.loadValue n d v).loading = s.loading := rfl
@[simp] theorem loadValue_draws (s : State) (n : Nat) (d : Reg) (v : Word) :
    (s.loadValue n d v).draws = s.draws := rfl

/-! ## logic2 -/

@[simp] theorem logic2_mem (s : State) (f : Word → Word → Word) (a b : Reg) :
    (s.logic2 f a b).mem = s.mem := rfl
@[simp] theorem logic2_x (s : State) (f : Word → Word → Word) (a b : Reg) :
    (s.logic2 f a b).x = s.x.set a (f (s.reg a) (s.reg b)) := rfl
@[simp] theorem logic2_pc (s : State) (f : Word → Word → Word) (a b : Reg) :
    (s.logic2 f a b).pc = s.pc + BitVec.ofNat 64 3 := rfl
@[simp] theorem logic2_cs (s : State) (f : Word → Word → Word) (a b : Reg) :
    (s.logic2 f a b).cs = s.cs := rfl
@[simp] theorem logic2_cl (s : State) (f : Word → Word → Word) (a b : Reg) :
    (s.logic2 f a b).cl = s.cl := rfl
@[simp] theorem logic2_status (s : State) (f : Word → Word → Word) (a b : Reg) :
    (s.logic2 f a b).status = s.status := rfl
@[simp] theorem logic2_fr (s : State) (f : Word → Word → Word) (a b : Reg) :
    (s.logic2 f a b).fr = s.fr := rfl
@[simp] theorem logic2_it (s : State) (f : Word → Word → Word) (a b : Reg) :
    (s.logic2 f a b).it = s.it := rfl
@[simp] theorem logic2_cfg (s : State) (f : Word → Word → Word) (a b : Reg) :
    (s.logic2 f a b).cfg = s.cfg := rfl
@[simp] theorem logic2_result (s : State) (f : Word → Word → Word) (a b : Reg) :
    (s.logic2 f a b).result = s.result := rfl
@[simp] theorem logic2_signals (s : State) (f : Word → Word → Word) (a b : Reg) :
    (s.logic2 f a b).signals = s.signals := rfl
@[simp] theorem logic2_loading (s : State) (f : Word → Word → Word) (a b : Reg) :
    (s.logic2 f a b).loading = s.loading := rfl
@[simp] theorem logic2_draws (s : State) (f : Word → Word → Word) (a b : Reg) :
    (s.logic2 f a b).draws = s.draws := rfl

/-! ## registerInterrupt -/

@[simp] theorem registerInterrupt_mem (s : State) (i : Byte) (h : Handler) :
    (s.registerInterrupt i h).mem = s.mem := rfl
@[simp] theorem registerInterrupt_x (s : State) (i : Byte) (h : Handler) :
    (s.registerInterrupt i h).x = s.x := rfl
@[simp] theorem registerInterrupt_pc (s : State) (i : Byte) (h : Handler) :
    (s.registerInterrupt i h).pc = s.pc := rfl
@[simp] theorem registerInterrupt_cs (s : State) (i : Byte) (h : Handler) :
    (s.registerInterrupt i h).cs = s.cs := rfl
@[simp] theorem registerInterrupt_cl (s : State) (i : Byte) (h : Handler) :
    (s.registerInterrupt i h).cl = s.cl := rfl
@[simp] theorem registerInterrupt_status (s : State) (i : Byte) (h : Handler) :
    (s.registerInterrupt i h).status = s.status := rfl
@[simp] theorem registerInterrupt_fr (s : State) (i : Byte) (h : Handler) :
    (s.registerInterrupt i h).fr = s.fr := rfl
@[simp] theorem registerInterrupt_it (s : State) (i : Byte) (h : Handler) :
    (s.registerInterrupt i h).it = sparsePut i.toNat h s.it := rfl
@[simp] theorem registerInterrupt_cfg (s : State) (i : Byte) (h : Handler) :
    (s.registerInterrupt i h).cfg = s.cfg := rfl
@[simp] theorem registerInterrupt_result (s : State) (i : Byte) (h : Handler) :
    (s.registerInterrupt i h).result = s.result := rfl
@[simp] theorem registerInterrupt_signals (s : State) (i : Byte) (h : Handler) :
    (s.registerInterrupt i h).signals = s.signals := rfl
@[simp] theorem registerInterrupt_loading (s : State) (i : Byte) (h : Handler) :
    (s.registerInterrupt i h).loading = s.loading := rfl
@[simp] theorem registerInterrupt_draws (s : State) (i : Byte) (h : Handler) :
    (s.registerInterrupt i h).draws = s.draws := rfl

/-! ## hostReset -/

@[simp] theorem hostReset_mem (s : State) : s.hostReset.mem = s.mem := rfl
@[simp] theorem hostReset_x (s : State) : s.hostReset.x = Vector.replicate 16 0 := rfl
@[simp] theorem hostReset_pc (s : State) : s.hostReset.pc = 0 := rfl
@[simp] theorem hostReset_cs (s : State) : s.hostReset.cs = [] := rfl
@[simp] theorem hostReset_cl (s : State) : s.hostReset.cl = { a := 0, b := 0 } := rfl
@[simp] theorem hostReset_status (s : State) : s.hostReset.status = .running := rfl
@[simp] theorem hostReset_fr (s : State) : s.hostReset.fr = none := rfl
@[simp] theorem hostReset_it (s : State) : s.hostReset.it = s.it := rfl
@[simp] theorem hostReset_cfg (s : State) : s.hostReset.cfg = s.cfg := rfl
@[simp] theorem hostReset_result (s : State) : s.hostReset.result = none := rfl
@[simp] theorem hostReset_signals (s : State) : s.hostReset.signals = [] := rfl
@[simp] theorem hostReset_loading (s : State) : s.hostReset.loading = true := rfl
@[simp] theorem hostReset_draws (s : State) : s.hostReset.draws = s.draws := rfl

/-! ## view -/

@[simp] theorem view_mem (s : State) : s.view.mem = s.mem := rfl
@[simp] theorem view_x (s : State) : s.view.x = s.x := rfl
@[simp] theorem view_pc (s : State) : s.view.pc = s.pc := rfl
@[simp] theorem view_cs (s : State) : s.view.cs = s.cs := rfl
@[simp] theorem view_cl (s : State) : s.view.cl = s.cl := rfl
@[simp] theorem view_status (s : State) : s.view.status = s.status := rfl
@[simp] theorem view_it (s : State) : s.view.it = s.it := rfl

end Sys2Proof.Machine
end

