-- ==== Sys2Proof/Laws/Ops.lean ====
section
/-! SUPPORT. For each shared operation, once, all that it can do. -/

namespace Sys2Proof.Machine

/-! ## Registers -/

/-- A register read after a register write (10_state.md R15). -/
theorem reg_setReg (s : State) (r q : Reg) (v : Word) :
    (s.setReg r v).reg q = if q = r then v else s.reg q := by
  simp only [State.reg, setReg_x, Vector.get_eq_getElem]
  by_cases h : q = r
  · subst h; simp
  · have : r.val ≠ q.val := fun he => h (Fin.ext he.symm)
    simp [this, h]

/-! ## Ending an instruction -/

/-- An instruction always ends in a next state: its own, or the one its fault leaves. -/
theorem settle_cases {s t : State} {r : Except FaultCause State} (h : s.settle r = .next t) :
    r = .ok t ∨ ∃ c, r = .error c ∧ t = s.raise s.pc c := by
  cases r with
  | ok s' => cases h; exact .inl rfl
  | error c => cases h; exact .inr ⟨c, rfl, rfl⟩

@[simp] theorem settle_ok (s t : State) : s.settle (.ok t) = .next t := rfl

@[simp] theorem settle_error (s : State) (c : FaultCause) :
    s.settle (.error c) = .next (s.raise s.pc c) := rfl

/-! ## The Call Stack -/

/-- All that `Push` can do (10_state.md R20). -/
theorem push_cases (s : State) (v : Word) :
    (s.push v = .ok { s with cs := s.cs ++ [v] } ∧
        ∀ n, s.cfg.callDepthMax = some n → s.cs.length ≠ n) ∨
      (∃ n, s.cfg.callDepthMax = some n ∧ s.cs.length = n ∧
        s.push v = .error (.callStackOverflow n)) := by
  unfold State.push
  cases h : s.cfg.callDepthMax with
  | none => exact .inl ⟨rfl, fun n hn => by cases hn⟩
  | some n =>
    by_cases hl : s.cs.length = n
    · exact .inr ⟨n, rfl, hl, by simp [hl]⟩
    · refine .inl ⟨by simp [hl], fun k hk => ?_⟩
      cases hk
      exact hl

/-- All that `Pop` can do (10_state.md R20). -/
theorem pop_cases (s : State) :
    (s.cs = [] ∧ s.pop = .error .stackUnderflow) ∨
      (∃ l v, s.cs = l ++ [v] ∧ s.pop = .ok (v, { s with cs := l })) := by
  rcases List.eq_nil_or_concat s.cs with h | ⟨l, v, h⟩
  · exact .inl ⟨h, by simp [State.pop, h]⟩
  · rw [List.concat_eq_append] at h
    exact .inr ⟨l, v, h, by simp [State.pop, h]⟩

/-! ## Operand forms -/

/-- All that reading a Move's source can do (30_encoding.md R58). -/
theorem readSrc_cases (w : Nat) (src : MovSrc) (s : State) :
    (∃ v, readSrc w src s = .ok v) ∨
      (∃ a, src = .mem a ∧ ¬ a.toNat + w ≤ s.mem.len ∧
        readSrc w src s = .error (.memoryOutOfBounds a.toNat w)) := by
  cases src with
  | reg r => exact .inl ⟨_, rfl⟩
  | const k => exact .inl ⟨_, rfl⟩
  | mem a =>
    rcases read_cases s.mem a.toNat w with ⟨_, h⟩ | ⟨hb, h⟩
    · exact .inl ⟨_, h⟩
    · exact .inr ⟨a, rfl, hb, h⟩

/-- All that writing a Move's destination can do (30_encoding.md R58). -/
theorem writeDst_cases (w : Nat) (dst : MovDst) (v : Word) (s : State) :
    (∃ r, dst = .reg r ∧ writeDst w dst v s = .ok (s.setReg r v)) ∨
      (∃ a, dst = .mem a ∧ a.toNat + w ≤ s.mem.len ∧ writeDst w dst v s =
        .ok { s with mem := s.mem.writeBytes a.toNat (leBytes w v.toNat) }) ∨
      (∃ a, dst = .mem a ∧ ¬ a.toNat + w ≤ s.mem.len ∧
        writeDst w dst v s = .error (.memoryOutOfBounds a.toNat w)) := by
  cases dst with
  | reg r => exact .inl ⟨r, rfl, rfl⟩
  | mem a =>
    rcases write_cases s.mem a.toNat w v with ⟨hb, h⟩ | ⟨hb, h⟩
    · exact .inr (.inl ⟨a, rfl, hb, by simp [writeDst, h]⟩)
    · exact .inr (.inr ⟨a, rfl, hb, by simp [writeDst, h]⟩)

/-- All that a three-register instruction can do (41_arithmetic_logic.md). -/
theorem arith3_cases (f : Word → Word → Except FaultCause Word) (a b c : Reg) (s : State) :
    (∃ v, f (s.reg a) (s.reg b) = .ok v ∧ s.arith3 f a b c = .next ((s.setReg c v).advance 4)) ∨
      (∃ e, f (s.reg a) (s.reg b) = .error e ∧ s.arith3 f a b c = .next (s.raise s.pc e)) := by
  unfold State.arith3
  cases h : f (s.reg a) (s.reg b) with
  | ok v => exact .inl ⟨v, rfl, rfl⟩
  | error e => exact .inr ⟨e, rfl, rfl⟩

/-- All that a division can do (R86). -/
theorem divWord_cases (a b : Word) :
    (sint b = 0 ∧ divWord a b = .error .divideByZero) ∨
      (sint b ≠ 0 ∧ sint a = -2 ^ 63 ∧ sint b = -1 ∧ divWord a b = .error .divideOverflow) ∨
      (sint b ≠ 0 ∧ ¬ (sint a = -2 ^ 63 ∧ sint b = -1) ∧
        divWord a b = .ok (wrap64 (truncQ (sint a) (sint b)))) := by
  unfold divWord
  by_cases h0 : sint b = 0
  · exact .inl ⟨h0, by simp [h0]⟩
  · by_cases h1 : sint a = -2 ^ 63 ∧ sint b = -1
    · exact .inr (.inl ⟨h0, h1.1, h1.2, by simp [h1]⟩)
    · exact .inr (.inr ⟨h0, h1, by rw [if_neg h0, if_neg h1]⟩)

/-! ## Callbacks -/

/-- All that a callback can do (43_system.md R99). -/
theorem applyCallback_cases (s : State) (v : HostView) :
    (v.Admissible s.cfg ∧ s.applyCallback v = { s.withView v with draws := s.draws + 1 }) ∨
      (¬ v.Admissible s.cfg ∧ s.applyCallback v = { s with draws := s.draws + 1 }) := by
  by_cases h : v.Admissible s.cfg
  · exact .inl ⟨h, by simp only [State.applyCallback, if_pos h]⟩
  · exact .inr ⟨h, by simp only [State.applyCallback, if_neg h]⟩

/-- A callback keeps the fault record, the parameters and what the step returns (R99). -/
theorem applyCallback_frame (s : State) (v : HostView) :
    (s.applyCallback v).fr = s.fr ∧ (s.applyCallback v).cfg = s.cfg ∧
      (s.applyCallback v).result = s.result ∧ (s.applyCallback v).signals = s.signals ∧
      (s.applyCallback v).loading = s.loading := by
  rcases applyCallback_cases s v with ⟨_, h⟩ | ⟨_, h⟩ <;> simp [h]

@[simp] theorem invoke_fr (s : State) (h : Handler) (i : Byte) : (s.invoke h i).fr = s.fr :=
  (applyCallback_frame s _).1

@[simp] theorem invoke_cfg (s : State) (h : Handler) (i : Byte) : (s.invoke h i).cfg = s.cfg :=
  (applyCallback_frame s _).2.1

@[simp] theorem invoke_result (s : State) (h : Handler) (i : Byte) :
    (s.invoke h i).result = s.result :=
  (applyCallback_frame s _).2.2.1

@[simp] theorem invoke_signals (s : State) (h : Handler) (i : Byte) :
    (s.invoke h i).signals = s.signals :=
  (applyCallback_frame s _).2.2.2.1

@[simp] theorem invoke_loading (s : State) (h : Handler) (i : Byte) :
    (s.invoke h i).loading = s.loading :=
  (applyCallback_frame s _).2.2.2.2

end Sys2Proof.Machine
end

