-- ==== Sys2Proof/Laws/Exec.lean ====
section
/-! SUPPORT. Once, all that an instruction can do: the inversion of `exec` that later proofs cite. -/

namespace Sys2Proof.Machine

/-- The register an instruction writes by itself, if any (10_state.md R17). -/
def destReg : Instr → Option Reg
  | .load1 d _ | .load2 d _ | .load3 d _ | .load4 d _ | .load5 d _ | .load6 d _ | .load7 d _
  | .load8 d _ | .mov _ _ (.reg d) | .add _ _ d | .sub _ _ d | .mul _ _ d | .div _ _ d
  | .not d | .and d _ | .or d _ | .xor d _ => some d
  | .mov _ _ (.mem _) | .nop | .cmp _ _ | .jmp _ | .ret | .hlt | .int _ | .cpuid => none

/-- The opcodes of the instructions that can fault once decoded (60_exceptions.md R103, R106). -/
def execFaulters : List Opcode := [.mov, .div, .jmp, .ret, .cpuid]

/-- The integer operations raise only divide faults. -/
theorem divWord_error {a b : Word} {c : FaultCause} (h : divWord a b = .error c) :
    c = .divideByZero ∨ c = .divideOverflow := by
  rcases divWord_cases a b with ⟨_, he⟩ | ⟨_, _, _, he⟩ | ⟨_, _, he⟩ <;> rw [he] at h <;> cases h
  · exact .inl rfl
  · exact .inr rfl

/-- A Move that reads or writes memory under a legal flags byte has a width of 1 to 8. -/
theorem width_of_legalFlags {w : BitVec 4} {src : MovSrc} {dst : MovDst}
    (h : legalFlags (moveFlags w src dst) = true) (hm : src.kind ≠ 0b00#2 ∨ dst.kind ≠ 0b00#2) :
    1 ≤ w.toNat ∧ w.toNat ≤ 8 := by
  rw [legalFlags_moveFlags] at h
  rw [← widthOk_iff]
  rcases hm with hm | hm <;> simpa [hm] using h

/-- All that MOV can do (40_data_movement.md R74). -/
theorem execMov_cases (w : BitVec 4) (src : MovSrc) (dst : MovDst) (s : State) :
    (∃ c, execMov w src dst s = .next (s.raise s.pc c) ∧ (c.record s.pc).Wf s.cfg) ∨
      (∃ r v, dst = .reg r ∧ readSrc w.toNat src s = .ok v ∧
        execMov w src dst s = .next ((s.setReg r v).advance (moveLength w src dst))) ∨
      (∃ a v, dst = .mem a ∧ readSrc w.toNat src s = .ok v ∧ a.toNat + w.toNat ≤ s.mem.len ∧
        execMov w src dst s = .next (({ s with
          mem := s.mem.writeBytes a.toNat (leBytes w.toNat v.toNat) } : State).advance
            (moveLength w src dst))) := by
  unfold execMov
  by_cases hf : legalFlags (moveFlags w src dst) = true
  · rw [if_pos hf]
    rcases readSrc_cases w.toNat src s with ⟨v, hv⟩ | ⟨a, rfl, _, hv⟩
    · rcases writeDst_cases w.toNat dst v s with ⟨r, rfl, hd⟩ | ⟨a, rfl, hb, hd⟩ | ⟨a, rfl, _, hd⟩
      · exact .inr (.inl ⟨r, v, rfl, hv, by simp [hv, hd]⟩)
      · exact .inr (.inr ⟨a, v, rfl, hv, hb, by simp [hv, hd]⟩)
      · refine .inl ⟨.memoryOutOfBounds a.toNat w.toNat, by simp only [hv, hd, settle_error], ?_⟩
        exact width_of_legalFlags hf (.inr (by simp [MovDst.kind]))
    · refine .inl ⟨.memoryOutOfBounds a.toNat w.toNat, by simp only [hv, settle_error], ?_⟩
      exact width_of_legalFlags hf (.inl (by simp [MovSrc.kind]))
  · rw [if_neg hf]
    refine .inl ⟨_, settle_error _ _, ?_⟩
    refine ⟨(moveFlags w src dst).isLt, ?_⟩
    simpa using hf

/-- ALL THAT AN INSTRUCTION CAN DO: it raises a fault of R103's table, or it has the one effect its
constructor names. -/
theorem exec_cases {i : Instr} {s t : State} (h : exec i s = .next t) :
    (i.opcode ∈ execFaulters ∧ ∃ c, t = s.raise s.pc c ∧ (c.record s.pc).Wf s.cfg) ∨
      (i = .nop ∧ t = s.advance 1) ∨
      (∃ r v, destReg i = some r ∧ t = (s.setReg r v).advance i.length) ∨
      (∃ w src a v, i = .mov w src (.mem a) ∧ readSrc w.toNat src s = .ok v ∧
        a.toNat + w.toNat ≤ s.mem.len ∧ t = ({ s with
          mem := s.mem.writeBytes a.toNat (leBytes w.toNat v.toNat) } : State).advance i.length) ∨
      (∃ a b, i = .cmp a b ∧ t = (s.latch (s.reg a) (s.reg b)).advance 3) ∨
      (∃ u, i = .jmp u ∧ (∀ n, s.cfg.callDepthMax = some n → s.cs.length ≠ n) ∧
        t = { s with cs := s.cs ++ [s.pc + 9], pc := u }) ∨
      (i = .ret ∧ ∃ l v, s.cs = l ++ [v] ∧ t = { s with cs := l, pc := v }) ∨
      (i = .hlt ∧ t = (s.advance 1).halt) ∨
      (∃ n, i = .int n ∧ s.handler n = none ∧
        t = (s.advance 2).signal (.unhandledInterrupt n)) ∨
      (∃ n g, i = .int n ∧ s.handler n = some g ∧ t = (s.advance 2).invoke g n) := by
  -- the arms that always write a register
  have hreg : ∀ {i : Instr} {r : Reg} {v : Word} {n : Nat}, destReg i = some r → i.length = n →
      Host.Outcome.next (φ := Fault) (ρ := Refusal) ((s.setReg r v).advance n) = .next t →
      ∃ r v, destReg i = some r ∧ t = (s.setReg r v).advance i.length := by
    intro i r v n hi hn he
    cases he
    exact ⟨r, v, hi, by rw [hn]⟩
  -- the arms of format F3 that raise nothing
  have harith : ∀ {i : Instr} {f : Word → Word → Word} {a b c : Reg}, destReg i = some c →
      i.length = 4 → s.arith3 (fun x y => .ok (f x y)) a b c = .next t →
      ∃ r v, destReg i = some r ∧ t = (s.setReg r v).advance i.length :=
    fun hi hn he => hreg hi hn he
  cases i with
  | nop => cases h; exact .inr (.inl ⟨rfl, rfl⟩)
  | load1 d v => exact .inr (.inr (.inl (hreg (i := .load1 d v) rfl rfl h)))
  | load2 d v => exact .inr (.inr (.inl (hreg (i := .load2 d v) rfl rfl h)))
  | load3 d v => exact .inr (.inr (.inl (hreg (i := .load3 d v) rfl rfl h)))
  | load4 d v => exact .inr (.inr (.inl (hreg (i := .load4 d v) rfl rfl h)))
  | load5 d v => exact .inr (.inr (.inl (hreg (i := .load5 d v) rfl rfl h)))
  | load6 d v => exact .inr (.inr (.inl (hreg (i := .load6 d v) rfl rfl h)))
  | load7 d v => exact .inr (.inr (.inl (hreg (i := .load7 d v) rfl rfl h)))
  | load8 d v => exact .inr (.inr (.inl (hreg (i := .load8 d v) rfl rfl h)))
  | not a => exact .inr (.inr (.inl (hreg (i := .not a) rfl rfl h)))
  | and a b => exact .inr (.inr (.inl (hreg (i := .and a b) rfl rfl h)))
  | or a b => exact .inr (.inr (.inl (hreg (i := .or a b) rfl rfl h)))
  | xor a b => exact .inr (.inr (.inl (hreg (i := .xor a b) rfl rfl h)))
  | mov w src dst =>
    replace h : execMov w src dst s = .next t := h
    rcases execMov_cases w src dst s with ⟨c, he, hc⟩ | ⟨r, v, rfl, _, he⟩ | ⟨a, v, rfl, hv, hb, he⟩
    · rw [he] at h; cases h; exact .inl ⟨by simp [execFaulters, Instr.opcode], c, rfl, hc⟩
    · exact .inr (.inr (.inl (hreg (i := .mov w src (.reg r)) rfl rfl (he ▸ h))))
    · rw [he] at h
      cases h
      exact .inr (.inr (.inr (.inl ⟨w, src, a, v, rfl, hv, hb, rfl⟩)))
  | add a b c =>
    exact .inr (.inr (.inl (harith (i := .add a b c)
      (f := fun x y => wrap64 (sint x + sint y)) rfl rfl h)))
  | sub a b c =>
    exact .inr (.inr (.inl (harith (i := .sub a b c)
      (f := fun x y => wrap64 (sint x - sint y)) rfl rfl h)))
  | mul a b c =>
    exact .inr (.inr (.inl (harith (i := .mul a b c)
      (f := fun x y => wrap64 (sint x * sint y)) rfl rfl h)))
  | div a b c =>
    replace h : s.arith3 divWord a b c = .next t := h
    rcases arith3_cases divWord a b c s with ⟨v, _, hv⟩ | ⟨e, hv, hs⟩
    · exact .inr (.inr (.inl (hreg (i := .div a b c) rfl rfl (hv ▸ h))))
    · rw [hs] at h
      cases h
      refine .inl ⟨by simp [execFaulters, Instr.opcode], e, rfl, ?_⟩
      rcases divWord_error hv with rfl | rfl <;> exact rfl
  | cmp a b => cases h; exact .inr (.inr (.inr (.inr (.inl ⟨a, b, rfl, rfl⟩))))
  | jmp u =>
    replace h : execJmp u s = .next t := h
    unfold execJmp at h
    rcases push_cases (s.advance 9) (s.advance 9).pc with ⟨hp, hd⟩ | ⟨n, hd, _, hp⟩
    · rw [hp] at h
      cases h
      exact .inr (.inr (.inr (.inr (.inr (.inl ⟨u, rfl, hd, rfl⟩)))))
    · rw [hp] at h
      cases h
      exact .inl ⟨by simp [execFaulters, Instr.opcode], _, rfl, hd⟩
  | ret =>
    replace h : execRet s = .next t := h
    unfold execRet at h
    rcases pop_cases (s.advance 1) with ⟨_, hp⟩ | ⟨l, v, hl, hp⟩
    · rw [hp] at h
      cases h
      exact .inl ⟨by simp [execFaulters, Instr.opcode], _, rfl, rfl⟩
    · rw [hp] at h
      cases h
      exact .inr (.inr (.inr (.inr (.inr (.inr (.inl ⟨rfl, l, v, hl, rfl⟩))))))
  | hlt => cases h; exact .inr (.inr (.inr (.inr (.inr (.inr (.inr (.inl ⟨rfl, rfl⟩)))))))
  | int n =>
    replace h : execInt n s = .next t := h
    unfold execInt at h
    cases hh : s.handler n with
    | none =>
      rw [hh] at h
      cases h
      exact .inr (.inr (.inr (.inr (.inr (.inr (.inr (.inr (.inl ⟨n, rfl, hh, rfl⟩))))))))
    | some g =>
      rw [hh] at h
      cases h
      exact .inr (.inr (.inr (.inr (.inr (.inr (.inr (.inr (.inr ⟨n, g, rfl, hh, rfl⟩))))))))
  | cpuid =>
    cases h
    exact .inl ⟨by simp [execFaulters, Instr.opcode], _, rfl, (s.cfg.opcodeMap.byteOf .cpuid).isLt⟩

end Sys2Proof.Machine
end

