-- ==== Sys2Proof/Laws/Formats.lean ====
section
/-! SUPPORT. For each decoder of a format, once, all that it can answer. -/

namespace Sys2Proof

open Machine

/-- The bytes a fetch used are the bytes of its value, which fits them. -/
theorem fetched_fits (F : BitVec 4) (bs : List Byte) (hl : bs.length = F.toNat)
    (h8 : F.toNat ≤ 8) :
    leBytes F.toNat (BitVec.ofNat 64 (leValue bs)).toNat = bs ∧
      fitsBytes F (BitVec.ofNat 64 (leValue bs)) = true := by
  have hlt := leValue_lt bs
  have h64 : leValue bs < 2^64 := lt_of_lt_of_le hlt (Nat.pow_le_pow_right (by decide) (by omega))
  have : (BitVec.ofNat 64 (leValue bs)).toNat = leValue bs := by
    rw [BitVec.toNat_ofNat, Nat.mod_eq_of_lt h64]
  rw [fitsBytes_iff, this, ← hl]
  exact ⟨leBytes_leValue bs, hlt⟩

/-- Where a source operand decodes, its bytes stand in front
of the rest (30_encoding.md R58). -/
theorem decodeSrc_ok {F : Byte} {c c' : Cursor} {src : MovSrc}
    (h : decodeSrc F c = .ok (src, c'))
    (h8 : flagsSk F ≠ 0#2 → (flagsWidth F).toNat ≤ 8) :
    src.kind = flagsSk F ∧ c.rest = src.encode (flagsWidth F) ++ c'.rest ∧
      src.wellFormed (flagsWidth F) = true := by
  unfold decodeSrc at h
  split at h
  · obtain ⟨⟨s, c1⟩, h1, h2⟩ := bind_eq_ok h
    cases h2
    rename_i hk
    exact ⟨hk.symm, (fetchReg_ok h1).1, rfl⟩
  · rename_i h0
    split at h
    · rename_i hk
      obtain ⟨⟨v, c1⟩, h1, h2⟩ := bind_eq_ok h
      cases h2
      obtain ⟨bs, hl, hv, hr, _⟩ := fetch_ok h1
      obtain ⟨e1, e2⟩ := fetched_fits _ bs hl (h8 h0)
      refine ⟨hk.symm, ?_, ?_⟩
      · simp only [MovSrc.encode, hr, hv, e1]
      · simp only [MovSrc.wellFormed, hv, e2]
    · split at h
      · rename_i hk
        obtain ⟨⟨v, c1⟩, h1, h2⟩ := bind_eq_ok h
        cases h2
        obtain ⟨bs, hl, hv, hr, _⟩ := fetch_ok h1
        obtain ⟨e1, e2⟩ := fetched_fits _ bs hl (h8 h0)
        refine ⟨hk.symm, ?_, ?_⟩
        · simp only [MovSrc.encode, hr, hv, e1]
        · simp only [MovSrc.wellFormed, hv, e2]
      · cases h

/-- Where a destination operand decodes, its bytes stand in front
of the rest (30_encoding.md R58). -/
theorem decodeDst_ok {F : Byte} {c c' : Cursor} {src : MovDst}
    (h : decodeDst F c = .ok (src, c'))
    (h8 : flagsDk F ≠ 0#2 → (flagsWidth F).toNat ≤ 8) :
    src.kind = flagsDk F ∧ c.rest = src.encode (flagsWidth F) ++ c'.rest ∧
      src.wellFormed (flagsWidth F) = true := by
  unfold decodeDst at h
  split at h
  · obtain ⟨⟨s, c1⟩, h1, h2⟩ := bind_eq_ok h
    cases h2
    rename_i hk
    exact ⟨hk.symm, (fetchReg_ok h1).1, rfl⟩
  · rename_i h0
    split at h
    · rename_i hk
      obtain ⟨⟨v, c1⟩, h1, h2⟩ := bind_eq_ok h
      cases h2
      obtain ⟨bs, hl, hv, hr, _⟩ := fetch_ok h1
      obtain ⟨e1, e2⟩ := fetched_fits _ bs hl (h8 h0)
      refine ⟨hk.symm, ?_, ?_⟩
      · simp only [MovDst.encode, hr, hv, e1]
      · simp only [MovDst.wellFormed, hv, e2]
    · cases h

/-- All that format FL decodes to (30_encoding.md R54). -/
theorem decodeLoad_ok {n : Nat} {mk : Reg → Nat → Instr} {c c' : Cursor} {i : Instr}
    (h : decodeLoad n mk c = .ok (i, c')) :
    ∃ d bs, bs.length = n ∧ i = mk d (leValue bs) ∧ c.rest = encodeReg d :: bs ++ c'.rest := by
  obtain ⟨⟨d, c1⟩, h1, h⟩ := bind_eq_ok h
  obtain ⟨⟨v, c2⟩, h2, h⟩ := bind_eq_ok h
  cases h
  obtain ⟨bs, hl, hv, hr, _⟩ := fetch_ok h2
  exact ⟨d, bs, hl, by rw [hv], by rw [(fetchReg_ok h1).1, hr]; rfl⟩

/-- All that format F3 decodes to (30_encoding.md R54). -/
theorem decodeReg3_ok {mk : Reg → Reg → Reg → Instr} {c c' : Cursor} {i : Instr}
    (h : decodeReg3 mk c = .ok (i, c')) :
    ∃ x y z, i = mk x y z ∧ c.rest = [encodeReg x, encodeReg y, encodeReg z] ++ c'.rest := by
  obtain ⟨⟨x, c1⟩, h1, h⟩ := bind_eq_ok h
  obtain ⟨⟨y, c2⟩, h2, h⟩ := bind_eq_ok h
  obtain ⟨⟨z, c3⟩, h3, h⟩ := bind_eq_ok h
  cases h
  exact ⟨x, y, z, rfl, by rw [(fetchReg_ok h1).1, (fetchReg_ok h2).1, (fetchReg_ok h3).1]; rfl⟩

/-- All that format F2 decodes to (30_encoding.md R54). -/
theorem decodeReg2_ok {mk : Reg → Reg → Instr} {c c' : Cursor} {i : Instr}
    (h : decodeReg2 mk c = .ok (i, c')) :
    ∃ x y, i = mk x y ∧ c.rest = [encodeReg x, encodeReg y] ++ c'.rest := by
  obtain ⟨⟨x, c1⟩, h1, h⟩ := bind_eq_ok h
  obtain ⟨⟨y, c2⟩, h2, h⟩ := bind_eq_ok h
  cases h
  exact ⟨x, y, rfl, by rw [(fetchReg_ok h1).1, (fetchReg_ok h2).1]; rfl⟩

/-- The ways a decoding can fail. -/
theorem decode_error {m : OpcodeMap} {bs : List Byte} {e : DecodeError}
    (h : decode m bs = .error e) :
    (∃ op, e = .invalidOpcode op) ∨ (∃ b, 16 ≤ b.toNat ∧ e = .registerIndexOutOfRange b) ∨
      (∃ F, legalFlags F = false ∧ e = .illegalMoveOperand F) ∨
      ∃ off n, 1 ≤ n ∧ n ≤ 8 ∧ e = .truncated off n := by
  generalize hP : (fun e : DecodeError => (∃ op, e = .invalidOpcode op) ∨
    (∃ b, 16 ≤ b.toNat ∧ e = .registerIndexOutOfRange b) ∨
    (∃ F, legalFlags F = false ∧ e = .illegalMoveOperand F) ∨
    ∃ off n, 1 ≤ n ∧ n ≤ 8 ∧ e = .truncated off n) = P
  suffices hs : P e by rw [← hP] at hs; exact hs
  have hf : ∀ {n c e}, 1 ≤ n → n ≤ 8 → fetch n c = .error e → P e := by
    intro n c e h1 h2 he
    obtain ⟨_, rfl⟩ := fetch_error he
    rw [← hP]; exact .inr (.inr (.inr ⟨_, n, h1, h2, rfl⟩))
  have hr : ∀ {c e}, fetchReg c = .error e → P e := by
    intro c e he
    rcases fetchReg_error he with ⟨_, rfl⟩ | ⟨b, _, _, hb, rfl⟩
    · rw [← hP]; exact .inr (.inr (.inr ⟨_, 1, le_refl 1, by omega, rfl⟩))
    · rw [← hP]; exact .inr (.inl ⟨b, hb, rfl⟩)
  have hl : ∀ {n mk c e}, 1 ≤ n → n ≤ 8 → decodeLoad n mk c = .error e → P e := by
    intro n mk c e h1 h2 he
    rcases bind_eq_error he with he | ⟨_, _, he⟩
    · exact hr he
    rcases bind_eq_error he with he | ⟨_, _, he⟩
    · exact hf h1 h2 he
    · cases he
  have h3 : ∀ {mk c e}, decodeReg3 mk c = .error e → P e := by
    intro mk c e he
    rcases bind_eq_error he with he | ⟨_, _, he⟩
    · exact hr he
    rcases bind_eq_error he with he | ⟨_, _, he⟩
    · exact hr he
    rcases bind_eq_error he with he | ⟨_, _, he⟩
    · exact hr he
    · cases he
  have h2 : ∀ {mk c e}, decodeReg2 mk c = .error e → P e := by
    intro mk c e he
    rcases bind_eq_error he with he | ⟨_, _, he⟩
    · exact hr he
    rcases bind_eq_error he with he | ⟨_, _, he⟩
    · exact hr he
    · cases he
  have hm : ∀ {c e}, decodeMov c = .error e → P e := by
    intro c e he
    rcases bind_eq_error he with he | ⟨⟨f, c⟩, _, he⟩
    · exact hf (le_refl 1) (by omega) he
    simp only at he
    by_cases hF : legalFlags (BitVec.ofNat 8 f) = true
    · rw [if_pos hF] at he
      have hw : (flagsSk (BitVec.ofNat 8 f) ≠ 0b00#2 ∨ flagsDk (BitVec.ofNat 8 f) ≠ 0b00#2) →
          1 ≤ (flagsWidth (BitVec.ofNat 8 f)).toNat ∧ (flagsWidth (BitVec.ofNat 8 f)).toNat ≤ 8 := by
        revert hF; generalize BitVec.ofNat 8 f = F; revert F; decide
      have hi : flagsSk (BitVec.ofNat 8 f) ≠ 0b00#2 →
          flagsSk (BitVec.ofNat 8 f) ≠ 0b01#2 → flagsSk (BitVec.ofNat 8 f) = 0b10#2 := by
        revert hF; generalize BitVec.ofNat 8 f = F; revert F; decide
      have hd : flagsDk (BitVec.ofNat 8 f) ≠ 0b00#2 → flagsDk (BitVec.ofNat 8 f) = 0b01#2 := by
        revert hF; generalize BitVec.ofNat 8 f = F; revert F; decide
      generalize BitVec.ofNat 8 f = F at *
      rcases bind_eq_error he with he | ⟨⟨src, c⟩, _, he⟩
      · unfold decodeSrc at he
        split at he
        · rcases bind_eq_error he with he | ⟨_, _, he⟩
          · exact hr he
          · cases he
        · rename_i h0
          have hw := hw (.inl h0)
          split at he
          · rcases bind_eq_error he with he | ⟨_, _, he⟩
            · exact hf hw.1 hw.2 he
            · cases he
          · rename_i h1
            rw [if_pos (hi h0 h1)] at he
            rcases bind_eq_error he with he | ⟨_, _, he⟩
            · exact hf hw.1 hw.2 he
            · cases he
      rcases bind_eq_error he with he | ⟨_, _, he⟩
      · unfold decodeDst at he
        split at he
        · rcases bind_eq_error he with he | ⟨_, _, he⟩
          · exact hr he
          · cases he
        · rename_i h0
          rw [if_pos (hd h0)] at he
          have hw := hw (.inr h0)
          rcases bind_eq_error he with he | ⟨_, _, he⟩
          · exact hf hw.1 hw.2 he
          · cases he
      · cases he
    · rw [if_neg hF] at he
      cases he
      rw [← hP]; exact .inr (.inr (.inl ⟨_, by simpa using hF, rfl⟩))
  cases bs with
  | nil => cases h; rw [← hP]; exact .inr (.inr (.inr ⟨0, 1, le_refl 1, by omega, rfl⟩))
  | cons op rest =>
    simp only [decode] at h
    split at h
    · cases h; rw [← hP]; exact .inl ⟨op, rfl⟩
    · rename_i k _
      split at h
      · cases h
      · rename_i e' he
        cases h
        cases k
        case nop => cases he
        case ret => cases he
        case hlt => cases he
        case cpuid => cases he
        case mov => exact hm he
        case not =>
          rcases bind_eq_error he with he | ⟨_, _, he⟩
          · exact hr he
          · cases he
        case jmp =>
          rcases bind_eq_error he with he | ⟨_, _, he⟩
          · exact hf (by omega) (by omega) he
          · cases he
        case int =>
          rcases bind_eq_error he with he | ⟨_, _, he⟩
          · exact hf (by omega) (by omega) he
          · cases he
        case and => exact h2 he
        case or => exact h2 he
        case xor => exact h2 he
        case cmp => exact h2 he
        case add => exact h3 he
        case sub => exact h3 he
        case mul => exact h3 he
        case div => exact h3 he
        case load1 =>
          exact hl (n := 1) (mk := fun d v => .load1 d (BitVec.ofNat _ v)) (by omega) (by omega) he
        case load2 =>
          exact hl (n := 2) (mk := fun d v => .load2 d (BitVec.ofNat _ v)) (by omega) (by omega) he
        case load3 =>
          exact hl (n := 3) (mk := fun d v => .load3 d (BitVec.ofNat _ v)) (by omega) (by omega) he
        case load4 =>
          exact hl (n := 4) (mk := fun d v => .load4 d (BitVec.ofNat _ v)) (by omega) (by omega) he
        case load5 =>
          exact hl (n := 5) (mk := fun d v => .load5 d (BitVec.ofNat _ v)) (by omega) (by omega) he
        case load6 =>
          exact hl (n := 6) (mk := fun d v => .load6 d (BitVec.ofNat _ v)) (by omega) (by omega) he
        case load7 =>
          exact hl (n := 7) (mk := fun d v => .load7 d (BitVec.ofNat _ v)) (by omega) (by omega) he
        case load8 =>
          exact hl (n := 8) (mk := fun d v => .load8 d (BitVec.ofNat _ v)) (by omega) (by omega) he

end Sys2Proof

namespace Sys2Proof.Machine

/-- The fault record of bytes that do not decode is of a row of R103 (60_exceptions.md R103). -/
theorem decode_error_recordWf {e : DecodeError} {m bs} (h : decode m bs = .error e)
    (cfg : Config) (start : Nat) (pc : Word) : ((e.cause start).record pc).Wf cfg := by
  rcases decode_error h with ⟨op, rfl⟩ | ⟨b, hb, rfl⟩ | ⟨F, hF, rfl⟩ | ⟨off, n, h1, h2, rfl⟩
  · exact op.isLt
  · exact ⟨hb, b.isLt⟩
  · exact ⟨F.isLt, by rw [show BitVec.ofNat 8 F.toNat = F by simp]; exact hF⟩
  · exact ⟨h1, h2⟩

end Sys2Proof.Machine
end

