-- ==== Sys2Proof/Laws/PerInstr.lean ====
section
/-! SUPPORT. The family `EncodedLength`, stated for each instruction as syntax: its encoding has the
length its format gives (30_encoding.md R53, R54, R59). -/

namespace Sys2Proof.Laws.EncodedLength

/-- A well-formed instruction's bytes are as many as its format says, 1 to 18 of them. -/
def Statement (i : Instr) : Prop :=
  i.wellFormed = true → ∀ m : OpcodeMap,
    (encode m i).length = i.length ∧ 1 ≤ i.length ∧ i.length ≤ maxInstrLength

/-- For the instructions whose length is a number. -/
theorem of_fixed {i : Instr} (n : Nat) (ho : i.operandBytes.length = n) (hl : i.length = n + 1)
    (hn : n ≤ 9) : Statement i := by
  intro _ m
  rw [encode, List.length_cons, ho, hl, maxInstrLength]
  omega

theorem nop : Statement .nop := of_fixed 0 rfl rfl (by decide)
theorem load1 (d : Reg) (v : BitVec 8) : Statement (.load1 d v) := of_fixed 2 rfl rfl (by decide)
theorem load2 (d : Reg) (v : BitVec 16) : Statement (.load2 d v) := of_fixed 3 rfl rfl (by decide)
theorem load3 (d : Reg) (v : BitVec 24) : Statement (.load3 d v) := of_fixed 4 rfl rfl (by decide)
theorem load4 (d : Reg) (v : BitVec 32) : Statement (.load4 d v) := of_fixed 5 rfl rfl (by decide)
theorem load5 (d : Reg) (v : BitVec 40) : Statement (.load5 d v) := of_fixed 6 rfl rfl (by decide)
theorem load6 (d : Reg) (v : BitVec 48) : Statement (.load6 d v) := of_fixed 7 rfl rfl (by decide)
theorem load7 (d : Reg) (v : BitVec 56) : Statement (.load7 d v) := of_fixed 8 rfl rfl (by decide)
theorem load8 (d : Reg) (v : BitVec 64) : Statement (.load8 d v) := of_fixed 9 rfl rfl (by decide)

theorem mov (w : BitVec 4) (src : MovSrc) (dst : MovDst) : Statement (.mov w src dst) := by
  intro hw m
  have he : (encode m (.mov w src dst)).length =
      2 + ((src.encode w).length + (dst.encode w).length) := by
    simp only [encode, Instr.operandBytes, List.length_cons, List.length_append]
    omega
  have hs : (src.encode w).length = src.length w := by
    cases src <;> simp [MovSrc.encode, MovSrc.length]
  have hd : (dst.encode w).length = dst.length w := by
    cases dst <;> simp [MovDst.encode, MovDst.length]
  have hb : 1 ≤ src.length w + dst.length w ∧ src.length w ≤ 8 ∧ dst.length w ≤ 8 := by
    cases src <;> cases dst <;>
      simp only [Instr.wellFormed, movWellFormed, Bool.and_eq_true, widthOk_iff] at hw <;>
      simp only [MovSrc.length, MovDst.length] <;> omega
  rw [he, hs, hd]
  show _ = 2 + src.length w + dst.length w ∧ 1 ≤ 2 + src.length w + dst.length w ∧
    2 + src.length w + dst.length w ≤ 18
  omega

theorem add (a b c : Reg) : Statement (.add a b c) := of_fixed 3 rfl rfl (by decide)
theorem sub (a b c : Reg) : Statement (.sub a b c) := of_fixed 3 rfl rfl (by decide)
theorem mul (a b c : Reg) : Statement (.mul a b c) := of_fixed 3 rfl rfl (by decide)
theorem div (a b c : Reg) : Statement (.div a b c) := of_fixed 3 rfl rfl (by decide)
theorem not (a : Reg) : Statement (.not a) := of_fixed 1 rfl rfl (by decide)
theorem and (a b : Reg) : Statement (.and a b) := of_fixed 2 rfl rfl (by decide)
theorem or (a b : Reg) : Statement (.or a b) := of_fixed 2 rfl rfl (by decide)
theorem xor (a b : Reg) : Statement (.xor a b) := of_fixed 2 rfl rfl (by decide)
theorem cmp (a b : Reg) : Statement (.cmp a b) := of_fixed 2 rfl rfl (by decide)
theorem jmp (t : Word) : Statement (.jmp t) := of_fixed 8 rfl rfl (by decide)
theorem ret : Statement .ret := of_fixed 0 rfl rfl (by decide)
theorem hlt : Statement .hlt := of_fixed 0 rfl rfl (by decide)
theorem int (i : Byte) : Statement (.int i) := of_fixed 1 rfl rfl (by decide)
theorem cpuid : Statement .cpuid := of_fixed 0 rfl rfl (by decide)

end Sys2Proof.Laws.EncodedLength
end

