-- ==== Sys2Proof/Laws/Step.lean ====
section
/-! SUPPORT. Once, all that a step can do (30_encoding.md R47). -/

namespace Sys2Proof.Machine

theorem step_halted {s : State} (h : s.status = .halted) : step s = .next s.notRunning := by
  simp [step, h]

theorem step_deadEnd {s : State} (h : s.status = .running) (hd : s.mem.len ≤ s.pc.toNat) :
    step s = .next s.deadEnd := by
  simp [step, h, State.AtDeadEnd, hd]

theorem step_error {s : State} (h : s.status = .running) (hd : s.pc.toNat < s.mem.len)
    {e : DecodeError} (he : s.fetchDecode = .error e) :
    step s = .next (s.beginStep.raise s.pc (e.cause s.pc.toNat)) := by
  simp [step, h, State.AtDeadEnd, Nat.not_le.2 hd, he]

/-- ALL THAT A STEP CAN DO. -/
theorem step_cases {s t : State} (h : step s = .next t) :
    (s.status = .halted ∧ t = s.notRunning) ∨
      (s.status = .running ∧ s.mem.len ≤ s.pc.toNat ∧ t = s.deadEnd) ∨
      (s.status = .running ∧ s.pc.toNat < s.mem.len ∧
        ∃ i, s.fetchDecode = .ok i ∧ exec i s.beginStep = .next t) ∨
      (s.status = .running ∧ s.pc.toNat < s.mem.len ∧
        ∃ e, s.fetchDecode = .error e ∧
          t = s.beginStep.raise s.pc (e.cause s.pc.toNat)) := by
  cases hs : s.status with
  | halted => rw [step_halted hs] at h; cases h; exact .inl ⟨rfl, rfl⟩
  | running =>
    by_cases hd : s.mem.len ≤ s.pc.toNat
    · rw [step_deadEnd hs hd] at h; cases h; exact .inr (.inl ⟨rfl, hd, rfl⟩)
    · have hd' : s.pc.toNat < s.mem.len := by omega
      cases hf : s.fetchDecode with
      | error e =>
        rw [step_error hs hd' hf] at h
        cases h
        exact .inr (.inr (.inr ⟨rfl, hd', e, rfl, rfl⟩))
      | ok i =>
        refine .inr (.inr (.inl ⟨rfl, hd', i, rfl, ?_⟩))
        simpa [step, hs, State.AtDeadEnd, hd, hf] using h

/-- A run of some steps is one step and the run of the rest. -/
theorem run_succ {s t : State} (h : step s = .next t) (k : Nat) :
    Sys2Proof.core.run (k + 1) s = Sys2Proof.core.run k t := by
  have h' : Sys2Proof.core.step s = .next t := h
  simp only [Host.Core.run, h']

@[simp] theorem run_zero (s : State) : Sys2Proof.core.run 0 s = .next s := rfl

end Sys2Proof.Machine
end

