-- ==== Sys2Proof/Tests/Slice0.lean ====
section
/-! SUPPORT. Tests: ill-formed terms the checks refuse, words written out from the spec's encodings,
one-step runs whose expected values are those of spec/ (40 to 43 and 95_test_vectors.md), and for
every obligation with hypotheses a state and operands that meet them. -/

namespace Sys2Proof.Tests

open Sys2Proof.Machine

/-- A machine in which these bytes were appended after construction. -/
def load (bs : List Byte) : State := { State.reset with
  mem := ({ len := bs.length, cells := [] } : Memory).writeBytes 0 bs }

/-- The same with register `r` at `v` and `q` at `u`. -/
def loadRegs (bs : List Byte) (r : Reg) (v : Word) (q : Reg) (u : Word) : State :=
  ((load bs).setReg r v).setReg q u

/-- One value of the state after a step. -/
def after {α : Type} (s : State) (f : State → α) : Option α :=
  match step s with
  | .next t => some (f t)
  | _ => none

/-- The code, address and information of the recorded fault. -/
def State.fault (s : State) : Option (Nat × Word × FaultInfo) :=
  s.fr.map fun r => (r.code.number, r.addr, r.info)

/-- Zero bytes. -/
def zeros (n : Nat) : List Byte := List.replicate n 0

theorem test_load_isAppendAll :
    State.reset.appendAll [0x01, 0x00, 0x04] = some (load [0x01, 0x00, 0x04]) := by decide

/-! ## WellFormed refuses -/

theorem test_wf_widthZero : Instr.wellFormed (.mov 0 (.mem 0) (.reg 1)) = false := by decide

theorem test_wf_widthNine : Instr.wellFormed (.mov 9 (.const 1) (.reg 1)) = false := by decide

theorem test_wf_sourceAddressTooWide :
    Instr.wellFormed (.mov 1 (.mem 256) (.reg 1)) = false := by decide

theorem test_wf_destinationAddressTooWide :
    Instr.wellFormed (.mov 2 (.reg 1) (.mem 65536)) = false := by decide

theorem test_wf_constantTooWide :
    Instr.wellFormed (.mov 1 (.const 256) (.mem 0)) = false := by decide

theorem test_wf_widest :
    Instr.wellFormed (.mov 8 (.const 0xFFFFFFFFFFFFFFFF) (.mem 0)) = true := by decide

theorem test_wf_registersIgnoreWidth :
    Instr.wellFormed (.mov 0 (.reg 1) (.reg 2)) = true := by decide


/-! ## Decoding: words written out from the encodings of spec/ 40 to 43 -/

theorem test_decode_nop :
    decode OpcodeMap.default [0x00] =
      .ok (.nop, []) := by rfl

theorem test_decode_load1 :
    decode OpcodeMap.default [0x01, 0x00, 0x04] =
      .ok (.load1 0 4, []) := by rfl

theorem test_decode_load2 :
    decode OpcodeMap.default [0x02, 0x01, 0xF4, 0x01] =
      .ok (.load2 1 500, []) := by rfl

theorem test_decode_load3 :
    decode OpcodeMap.default [0x03, 0x02, 0x01, 0x02, 0x03] =
      .ok (.load3 2 0x030201, []) := by rfl

theorem test_decode_load4 :
    decode OpcodeMap.default [0x04, 0x03, 0x78, 0x56, 0x34, 0x12] =
      .ok (.load4 3 0x12345678, []) := by rfl

theorem test_decode_load5 :
    decode OpcodeMap.default [0x05, 0x04, 0xFF, 0xFF, 0xFF, 0xFF, 0xFF] =
      .ok (.load5 4 0xFFFFFFFFFF, []) := by rfl

theorem test_decode_load6 :
    decode OpcodeMap.default [0x06, 0x05, 0x00, 0x00, 0x00, 0x00, 0x00, 0x80] =
      .ok (.load6 5 0x800000000000, []) := by rfl

theorem test_decode_load7 :
    decode OpcodeMap.default [0x07, 0x06, 0x01, 0x00, 0x00, 0x00, 0x00, 0x00, 0x00] =
      .ok (.load7 6 1, []) := by rfl

theorem test_decode_load8 :
    decode OpcodeMap.default [0x08, 0x07, 0xFE, 0xFF, 0xFF, 0xFF, 0xFF, 0xFF, 0xFF, 0xFF] =
      .ok (.load8 7 0xFFFFFFFFFFFFFFFE, []) := by rfl

theorem test_decode_movRegReg :
    decode OpcodeMap.default [0x09, 0x08, 0x01, 0x02] =
      .ok (.mov 8 (.reg 1) (.reg 2), []) := by rfl

theorem test_decode_movRegMem :
    decode OpcodeMap.default [0x09, 0x44, 0x03, 0x10, 0x00, 0x00, 0x00] =
      .ok (.mov 4 (.reg 3) (.mem 16), []) := by rfl

theorem test_decode_movMemReg :
    decode OpcodeMap.default [0x09, 0x12, 0x10, 0x00, 0x05] =
      .ok (.mov 2 (.mem 16) (.reg 5), []) := by rfl

theorem test_decode_movMemMem :
    decode OpcodeMap.default [0x09, 0x51, 0x10, 0x20] =
      .ok (.mov 1 (.mem 16) (.mem 32), []) := by rfl

theorem test_decode_movConstReg :
    decode OpcodeMap.default [0x09, 0x21, 0x07, 0x04] =
      .ok (.mov 1 (.const 7) (.reg 4), []) := by rfl

theorem test_decode_movConstMem :
    decode OpcodeMap.default [0x09, 0x61, 0x2A, 0x10] =
      .ok (.mov 1 (.const 42) (.mem 16), []) := by rfl

theorem test_decode_add :
    decode OpcodeMap.default [0x0A, 0x00, 0x01, 0x02] =
      .ok (.add 0 1 2, []) := by rfl

theorem test_decode_sub :
    decode OpcodeMap.default [0x0B, 0x00, 0x01, 0x02] =
      .ok (.sub 0 1 2, []) := by rfl

theorem test_decode_mul :
    decode OpcodeMap.default [0x0C, 0x00, 0x01, 0x02] =
      .ok (.mul 0 1 2, []) := by rfl

theorem test_decode_div :
    decode OpcodeMap.default [0x0D, 0x00, 0x01, 0x02] =
      .ok (.div 0 1 2, []) := by rfl

theorem test_decode_not :
    decode OpcodeMap.default [0x0E, 0x04, 0x99] =
      .ok (.not 4, [0x99]) := by rfl

theorem test_decode_and :
    decode OpcodeMap.default [0x0F, 0x00, 0x01] =
      .ok (.and 0 1, []) := by rfl

theorem test_decode_or :
    decode OpcodeMap.default [0x10, 0x00, 0x01] =
      .ok (.or 0 1, []) := by rfl

theorem test_decode_xor :
    decode OpcodeMap.default [0x11, 0x00, 0x0F] =
      .ok (.xor 0 15, []) := by rfl

theorem test_decode_cmp :
    decode OpcodeMap.default [0x12, 0x02, 0x09] =
      .ok (.cmp 2 9, []) := by rfl

theorem test_decode_jmp :
    decode OpcodeMap.default [0x13, 0x11, 0x00, 0x00, 0x00, 0x00, 0x00, 0x00, 0x00] =
      .ok (.jmp 17, []) := by rfl

theorem test_decode_ret :
    decode OpcodeMap.default [0x14] =
      .ok (.ret, []) := by rfl

theorem test_decode_hlt :
    decode OpcodeMap.default [0x15] =
      .ok (.hlt, []) := by rfl

theorem test_decode_int :
    decode OpcodeMap.default [0x16, 0x03] =
      .ok (.int 3, []) := by rfl

theorem test_decode_cpuid :
    decode OpcodeMap.default [0x17] =
      .ok (.cpuid, []) := by rfl

/-- The encoder writes the same bytes: the Move with two fields of two bytes. -/
theorem test_encode_movMemMem :
    encode OpcodeMap.default (.mov 2 (.mem 0x0506) (.mem 0x0708)) =
      [0x09, 0x52, 0x06, 0x05, 0x08, 0x07] := by rfl

theorem test_decodeTableWord_jmp : decodeTableWord 72 0x13 = some (.jmp 0) := by rfl

theorem test_decodeTableWord_add : decodeTableWord 32 0x0201000A = some (.add 0 1 2) := by rfl

theorem test_withFetchWord_runs :
    after (State.reset.withFetchWord 32 0x0303020E) (fun t => (t.x.get 2, t.pc)) =
      some (0xFFFFFFFFFFFFFFFF, 2) := by decide


/-! ## One step of each instruction (95_test_vectors.md, section 2) -/

/-- V-M1 -/
theorem test_nop :
    after (load [0x00])
        (fun t => (t.pc, t.status)) =
      some (1, .running) := by decide

/-- V-M2 -/
theorem test_load1_zeroExtends :
    after (load [0x01, 0x03, 0xFF])
        (fun t => (t.x.get 3, t.pc)) =
      some (0xFF, 3) := by decide

/-- V-M3 -/
theorem test_load2_zeroExtends :
    after (load [0x02, 0x03, 0xCD, 0xAB])
        (fun t => (t.x.get 3, t.pc)) =
      some (0xABCD, 4) := by decide

/-- V-M4 -/
theorem test_load3_zeroExtends :
    after (load [0x03, 0x03, 0x00, 0x00, 0x80])
        (fun t => (t.x.get 3, t.pc)) =
      some (0x800000, 5) := by decide

/-- V-M5 -/
theorem test_load4_zeroExtends :
    after (load [0x04, 0x03, 0x00, 0x00, 0x00, 0x80])
        (fun t => (t.x.get 3, t.pc)) =
      some (0x80000000, 6) := by decide

/-- V-M6 -/
theorem test_load5_zeroExtends :
    after (load [0x05, 0x03, 0x05, 0x04, 0x03, 0x02, 0x01])
        (fun t => (t.x.get 3, t.pc)) =
      some (0x102030405, 7) := by decide

/-- V-M7 -/
theorem test_load6_zeroExtends :
    after (load [0x06, 0x03, 0xFF, 0xFF, 0xFF, 0xFF, 0xFF, 0xFF])
        (fun t => (t.x.get 3, t.pc)) =
      some (0xFFFFFFFFFFFF, 8) := by decide

/-- V-M8 -/
theorem test_load7_zeroExtends :
    after (load [0x07, 0x03, 0x00, 0x00, 0x00, 0x00, 0x00, 0x00, 0x80])
        (fun t => (t.x.get 3, t.pc)) =
      some (0x80000000000000, 9) := by decide

/-- V-M9 -/
theorem test_load8_zeroExtends :
    after (load [0x08, 0x03, 0x00, 0x00, 0x00, 0x00, 0x00, 0x00, 0x00, 0x80])
        (fun t => (t.x.get 3, t.pc)) =
      some (0x8000000000000000, 10) := by decide

/-- V-M11 -/
theorem test_load4_overwritesAllBits :
    after (loadRegs [0x04, 0x01, 0x01, 0x00, 0x00, 0x00] 1 0xFFFFFFFFFFFFFFFF 2 0)
        (fun t => t.x.get 1) =
      some (1) := by decide

/-- V-M12 -/
theorem test_load3_truncated :
    after (load [0x03, 0x00, 0x01, 0x02])
        (fun t => (State.fault t, t.pc)) =
      some (some (6, 0, .access 2 3), 0) := by decide

/-- V-D5 -/
theorem test_load1_badRegister :
    after (load [0x01, 0x10, 0x05])
        (fun t => (State.fault t, t.pc)) =
      some (some (2, 0, .value 0x10), 0) := by decide

/-- V-M14 -/
theorem test_mov_regReg_widthIgnored :
    after (loadRegs [0x09, 0x00, 0x01, 0x02] 1 0x1122334455667788 3 0)
        (fun t => (t.x.get 2, t.pc)) =
      some (0x1122334455667788, 4) := by decide

/-- V-M15 -/
theorem test_mov_regMem_lowBytes :
    after (loadRegs [0x09, 0x44, 0x03, 0x08, 0x00, 0x00, 0x00, 0x00, 0xAA, 0xAA,
      0xAA, 0xAA, 0xAA] 3 0x1122334455667788 4 0)
        (fun t => (t.mem.bytes 7 6, t.pc)) =
      some ([0, 0x88, 0x77, 0x66, 0x55, 0xAA], 7) := by decide

/-- V-M16 -/
theorem test_mov_memReg_zeroExtends :
    after (loadRegs [0x09, 0x12, 0x05, 0x00, 0x04, 0xFE, 0xFF] 4 0xFFFFFFFFFFFFFFFF 5 0)
        (fun t => (t.x.get 4, t.pc)) =
      some (0xFFFE, 5) := by decide

/-- V-M18 -/
theorem test_mov_memMem_overlap :
    after (load [0x09, 0x52, 0x06, 0x00, 0x07, 0x00, 0x11, 0x22, 0x33])
        (fun t => t.mem.bytes 6 3) =
      some ([0x11, 0x11, 0x22]) := by decide

/-- V-M20 -/
theorem test_mov_constReg :
    after (load [0x09, 0x28, 0x0D, 0xF0, 0xFE, 0xCA, 0xEF, 0xBE, 0xAD, 0xDE,
      0x06])
        (fun t => (t.x.get 6, t.pc)) =
      some (0xDEADBEEFCAFEF00D, 11) := by decide

/-- V-M21 -/
theorem test_mov_constMem :
    after (load [0x09, 0x61, 0x2A, 0x04, 0x00])
        (fun t => (t.mem.byte 4, t.pc)) =
      some (0x2A, 4) := by decide

/-- V-M22 -/
theorem test_mov_constantDestination :
    after (load [0x09, 0xA1, 0x01, 0x02])
        (fun t => (State.fault t, t.pc)) =
      some (some (7, 0, .value 0xA1), 0) := by decide

/-- V-M27 -/
theorem test_mov_straddlesTheEnd :
    after (loadRegs [0x09, 0x42, 0x01, 0x05, 0x00, 0xEE] 1 0xBBAA 2 0)
        (fun t => (State.fault t, t.pc)) =
      some (some (6, 0, .access 5 2), 0) := by decide

/-- V-A2 -/
theorem test_add_selfReferential :
    after (loadRegs [0x0A, 0x02, 0x02, 0x02] 2 8 3 0)
        (fun t => (t.x.get 2, t.pc)) =
      some (0x10, 4) := by decide

/-- V-A3 -/
theorem test_add_wraps :
    after (loadRegs [0x0A, 0x00, 0x01, 0x02] 0 0x7FFFFFFFFFFFFFFF 1 1)
        (fun t => t.x.get 2) =
      some (0x8000000000000000) := by decide

/-- V-A5 -/
theorem test_sub_order :
    after (loadRegs [0x0B, 0x00, 0x01, 0x02] 0 3 1 5)
        (fun t => (t.x.get 2, t.pc)) =
      some (0xFFFFFFFFFFFFFFFE, 4) := by decide

/-- V-A6 -/
theorem test_sub_wraps :
    after (loadRegs [0x0B, 0x00, 0x01, 0x02] 0 0x8000000000000000 1 1)
        (fun t => t.x.get 2) =
      some (0x7FFFFFFFFFFFFFFF) := by decide

/-- V-A9 -/
theorem test_mul_losesHighHalf :
    after (loadRegs [0x0C, 0x00, 0x01, 0x02] 0 0x100000000 1 0x100000000)
        (fun t => (t.x.get 2, t.pc)) =
      some (0, 4) := by decide

/-- V-A10 -/
theorem test_mul_minByMinusOne :
    after (loadRegs [0x0C, 0x00, 0x01, 0x02] 0 0x8000000000000000 1 0xFFFFFFFFFFFFFFFF)
        (fun t => t.x.get 2) =
      some (0x8000000000000000) := by decide

/-- V-A13 -/
theorem test_div_towardZero :
    after (loadRegs [0x0D, 0x00, 0x01, 0x02] 0 0xFFFFFFFFFFFFFFF9 1 2)
        (fun t => (t.x.get 2, t.pc)) =
      some (0xFFFFFFFFFFFFFFFD, 4) := by decide

/-- V-A17 -/
theorem test_div_zeroByZero :
    after (load [0x0D, 0x00, 0x01, 0x02])
        (fun t => (State.fault t, t.pc)) =
      some (some (3, 0, .value 0), 0) := by decide

/-- V-L2 -/
theorem test_not_lowByte :
    after (loadRegs [0x0E, 0x04] 4 0xFF 5 0)
        (fun t => (t.x.get 4, t.pc)) =
      some (0xFFFFFFFFFFFFFF00, 2) := by decide

/-- V-L3 -/
theorem test_and_toFirst :
    after (loadRegs [0x0F, 0x00, 0x01] 0 0xF0F0 1 0xFF00)
        (fun t => (t.x.get 0, t.x.get 1, t.pc)) =
      some (0xF000, 0xFF00, 3) := by decide

/-- V-L4 -/
theorem test_or_toFirst :
    after (loadRegs [0x10, 0x00, 0x01] 0 0xF0F0 1 0xFF00)
        (fun t => (t.x.get 0, t.x.get 1, t.pc)) =
      some (0xFFF0, 0xFF00, 3) := by decide

/-- V-L5 -/
theorem test_xor_toFirst :
    after (loadRegs [0x11, 0x00, 0x01] 0 0xF0F0 1 0xFF00)
        (fun t => (t.x.get 0, t.x.get 1, t.pc)) =
      some (0x0FF0, 0xFF00, 3) := by decide

/-- V-L8 -/
theorem test_cmp_latchesValues :
    after (loadRegs [0x12, 0x02, 0x09] 2 0xFFFFFFFFFFFFFFFF 9 0x2A)
        (fun t => (t.cl, t.pc)) =
      some ({ a := 0xFFFFFFFFFFFFFFFF, b := 0x2A }, 3) := by decide

/-- V-L10 -/
theorem test_cmp_badRegister :
    after (load [0x12, 0x02, 0x10])
        (fun t => (State.fault t, t.pc)) =
      some (some (2, 0, .value 0x10), 0) := by decide

/-- V-C1 -/
theorem test_jmp_pushes :
    after (load [0x13, 0x0A, 0x00, 0x00, 0x00, 0x00, 0x00, 0x00, 0x00, 0x15])
        (fun t => (t.cs, t.pc)) =
      some ([9], 10) := by decide

/-- V-C7 -/
theorem test_jmp_fullStack :
    after { load [0x13, 0x00, 0x00, 0x00, 0x00, 0x00, 0x00, 0x00, 0x00] with 
        cs := [1, 2], cfg := { Config.default with callDepthMax := some 2 } }
        (fun t => (State.fault t, t.cs)) =
      some (some (8, 0, .value 2), [1, 2]) := by decide

/-- V-C4 -/
theorem test_ret_popsTheTop :
    after { load [0x14] with cs := [5, 9] }
        (fun t => (t.cs, t.pc)) =
      some ([5], 9) := by decide

/-- V-C3 -/
theorem test_ret_emptyStack :
    after (load [0x14])
        (fun t => (State.fault t, t.pc)) =
      some (some (5, 0, .value 0), 0) := by decide

/-- V-C9 -/
theorem test_hlt :
    after (load [0x15])
        (fun t => (t.status, t.pc, t.fr)) =
      some (.halted, 1, none) := by decide

/-- V-S1 -/
theorem test_int_unregistered :
    after (load [0x16, 0x03])
        (fun t => (t.signals, t.pc, t.status)) =
      some ([.unhandledInterrupt 3], 2, .running) := by decide

/-- V-S4 -/
theorem test_cpuid :
    after (load [0x17])
        (fun t => (State.fault t, t.pc)) =
      some (some (1, 0, .value 0x17), 0) := by decide

/-- V-D2 -/
theorem test_invalidOpcode :
    after (load [0x18])
        (fun t => (State.fault t, t.pc)) =
      some (some (1, 0, .value 0x18), 0) := by decide

/-- V-D1 and V-R5: the first step of a machine to which nothing was appended. -/
theorem test_deadEnd :
    after State.reset (fun t => (t.signals, t.pc, t.status)) = some ([.deadEnd 0], 0, .halted) := by
  decide

/-- An INT with an entry takes one free draw for its callback (43_system.md R98, R99). -/
theorem test_int_registered :
    after { load [0x16, 0x05] with it := [(5, 9)] } State.draws = some 1 := by rfl

/-! ## Witnesses: states and operands that meet the hypotheses of the statements -/

/-- A machine with something in every component: 12 bytes, a stack, a latch, an interrupt entry. -/
def busy : State := { loadRegs (zeros 4 ++ [0x2A] ++ zeros 11) 0 7 1 0xFFFFFFFFFFFFFFFE with
  cs := [5, 9], cl := { a := 1, b := 2 }, it := [(5, 9)] }

theorem witness_defaultMap : OpcodeMap.default.Injective := by decide

theorem witness_DecodeEncodeRoundTrip : OpcodeMap.default.Injective ∧
    Instr.wellFormed (.mov 8 (.const 0xFFFFFFFFFFFFFFFF) (.mem 0xFFFFFFFFFFFFFFFF)) = true := by
  decide

theorem witness_DecodedBytesAreTheEncoding :
    decode OpcodeMap.default [0x12, 0x02, 0x09, 0x15] = .ok (.cmp 2 9, [0x15]) := by rfl

theorem witness_LengthFollowsFromFirstTwoBytes :
    decode OpcodeMap.default [0x09, 0x51, 0x10, 0x20] = .ok (.mov 1 (.mem 16) (.mem 32), []) ∧
    decode OpcodeMap.default [0x09, 0x51, 0x11, 0x21, 0x00] =
      .ok (.mov 1 (.mem 17) (.mem 33), [0x00]) := ⟨rfl, rfl⟩

theorem witness_StepRunsDecodedInstruction : (load [0x16, 0x03]).status = .running ∧
    (load [0x16, 0x03]).pc.toNat < (load [0x16, 0x03]).mem.len ∧
    (load [0x16, 0x03]).fetchDecode = .ok (.int 3) := ⟨rfl, by decide, rfl⟩

theorem witness_StepRunsStoredEncoding : (load [0x0A, 0, 1, 2]).status = .running ∧
    (load [0x0A, 0, 1, 2]).cfg.opcodeMap.Injective ∧ Instr.wellFormed (.add 0 1 2) = true ∧
    (load [0x0A, 0, 1, 2]).pc.toNat + (Instr.add 0 1 2).length ≤ (load [0x0A, 0, 1, 2]).mem.len ∧
    (load [0x0A, 0, 1, 2]).mem.bytes (load [0x0A, 0, 1, 2]).pc.toNat (Instr.add 0 1 2).length =
      encode (load [0x0A, 0, 1, 2]).cfg.opcodeMap (.add 0 1 2) := by decide

theorem witness_HaltedStepChangesNothing :
    ({ busy with status := .halted } : State).status = .halted := by rfl

theorem witness_DeadEndHaltsTheMachine : busy.status = .running ∧
    busy.mem.len ≤ ({ busy with pc := 16 } : State).pc.toNat := by decide

theorem witness_FaultsArePrecise : ∃ t, step (load [0x0D, 0, 1, 2]) = .next t ∧
    t.result = some (.faulted .divideByZero) := ⟨_, rfl, by decide⟩

theorem witness_OnlyFaultsWriteTheFaultRecord : ∃ t, step (load [0x12, 2, 9]) = .next t ∧
    ∀ c, t.result ≠ some (.faulted c) := ⟨_, rfl, by intro c; cases c <;> decide⟩

theorem witness_OpcodeByteSelectsOneInstructionOrFaults :
    ((load [0x18]).status = .running ∧ (load [0x18]).pc.toNat < (load [0x18]).mem.len ∧
      ∀ k, (load [0x18]).cfg.opcodeMap.byteOf k ≠ (load [0x18]).mem.byte 0) ∧
    ((load [0x17]).status = .running ∧ (load [0x17]).pc.toNat < (load [0x17]).mem.len ∧
      (load [0x17]).cfg.opcodeMap.Injective ∧
      (load [0x17]).cfg.opcodeMap.byteOf .cpuid = (load [0x17]).mem.byte 0) :=
  ⟨⟨rfl, by decide, by intro k; cases k <;> decide⟩, rfl, by decide, by decide, by decide⟩

/-- The boundary values 16 and 255 of the index byte. -/
theorem witness_FirstRegisterByteOutOfRangeFaults : ∀ b ∈ [(16 : Byte), 255],
    (load [0x08, b]).status = .running ∧ (load [0x08, b]).cfg.opcodeMap.Injective ∧
    Opcode.load8 ∉ [Opcode.nop, .mov, .jmp, .ret, .hlt, .int, .cpuid] ∧
    (load [0x08, b]).pc.toNat + 1 < (load [0x08, b]).mem.len ∧
    (load [0x08, b]).mem.byte (load [0x08, b]).pc.toNat =
      (load [0x08, b]).cfg.opcodeMap.byteOf .load8 ∧
    16 ≤ ((load [0x08, b]).mem.byte ((load [0x08, b]).pc.toNat + 1)).toNat := by decide

/-- The third register byte at the boundary value 16, after two at the boundary value 15. -/
theorem witness_AnyRegisterByteOutOfRangeFaults :
    (load [0x0D, 15, 15, 16]).status = .running ∧
    (load [0x0D, 15, 15, 16]).cfg.opcodeMap.Injective ∧
    (load [0x0D, 15, 15, 16]).pc.toNat + 3 < (load [0x0D, 15, 15, 16]).mem.len ∧
    16 ≤ ((load [0x0D, 15, 15, 16]).mem.byte 3).toNat ∧
    (load [0x0D, 15, 15, 16]).mem.byte 0 = (load [0x0D, 15, 15, 16]).cfg.opcodeMap.byteOf .div ∧
    (∀ q < 3, 1 ≤ q → ((load [0x0D, 15, 15, 16]).mem.byte q).toNat < 16) := by decide

/-- Each register operand of a Move at the boundary value 16, as the bytes and the byte's offset: the
source register of `0x0F`, of `0x41` and of `0x48` with its address missing, the destination register
of `0x00`, and that of `0x11`, `0x18`, `0x21` and `0x28`, the addresses out of bounds. -/
theorem witness_AnyRegisterByteOutOfRangeFaults_mov : ∀ p ∈ [([0x09, 0x0F, 16], 2),
      ([0x09, 0x41, 16], 2), ([0x09, 0x48, 16], 2), ([0x09, 0x00, 15, 16], 3),
      ([0x09, 0x11, 0xFF, 16], 3), ([0x09, 0x18] ++ List.replicate 8 0xFF ++ [16], 10),
      ([0x09, 0x21, 0xFF, 16], 3), ([0x09, 0x28] ++ List.replicate 8 0xFF ++ [16], 10)],
    let s := load p.1
    let F := (s.mem.byte 1).toNat
    s.status = .running ∧ s.cfg.opcodeMap.Injective ∧ s.pc.toNat + p.2 < s.mem.len ∧
    16 ≤ (s.mem.byte p.2).toNat ∧ s.mem.byte 0 = s.cfg.opcodeMap.byteOf .mov ∧
    ((p.2 = 2 ∧ (F / 16 = 0 ∨ F / 16 = 4 ∧ 1 ≤ F % 16 ∧ F % 16 ≤ 8)) ∨
      (p.2 = 3 ∧ F / 16 = 0 ∧ (s.mem.byte 2).toNat < 16) ∨
      (p.2 = 2 + F % 16 ∧ (F / 16 = 1 ∨ F / 16 = 2) ∧ 1 ≤ F % 16 ∧ F % 16 ≤ 8)) := by decide

/-- An instruction cut to `k` bytes, and the field `(off, n)` that does not fit: a register, a LOAD3
value of which no byte, one byte and all but one are there, a JMP target, and the operands of a Move
with its flags byte, its source and its destination cut. -/
theorem witness_TruncatedInstructionFaults :
    ∀ p ∈ [(Instr.add 0 1 2, 1, 1, 1), (.add 0 1 2, 3, 3, 1), (.load3 0 0x030201, 2, 2, 3),
      (.load3 0 0x030201, 3, 2, 3), (.load3 0 0x030201, 4, 2, 3), (.jmp 17, 1, 1, 8),
      (.jmp 17, 8, 1, 8), (.int 3, 1, 1, 1), (.mov 8 (.mem 1) (.mem 2), 1, 1, 1),
      (.mov 8 (.mem 1) (.mem 2), 2, 2, 8), (.mov 8 (.mem 1) (.mem 2), 9, 2, 8),
      (.mov 8 (.mem 1) (.mem 2), 10, 10, 8), (.mov 8 (.mem 1) (.mem 2), 17, 10, 8)],
    let s := load ((encode OpcodeMap.default p.1).take p.2.1)
    s.status = .running ∧ s.cfg.opcodeMap.Injective ∧ p.1.wellFormed = true ∧ 1 ≤ p.2.1 ∧
    s.mem.len = s.pc.toNat + p.2.1 ∧
    s.mem.bytes s.pc.toNat p.2.1 = (encode s.cfg.opcodeMap p.1).take p.2.1 ∧
    p.2.2.1 ≤ p.2.1 ∧ p.2.1 < p.2.2.1 + p.2.2.2 := by decide

/-- Each way a flags byte is illegal: constant destination, kind 11, and a width of 0 or 9. -/
theorem witness_IllegalMoveFlagsFault : ∀ F ∈ [0xA1, 0xC8, 0x30, 0x10, 0x49],
    (load [0x09, BitVec.ofNat 8 F]).status = .running ∧
    (load [0x09, BitVec.ofNat 8 F]).cfg.opcodeMap.Injective ∧
    (load [0x09, BitVec.ofNat 8 F]).pc.toNat + 1 < (load [0x09, BitVec.ofNat 8 F]).mem.len ∧
    (load [0x09, BitVec.ofNat 8 F]).mem.byte 0 =
      (load [0x09, BitVec.ofNat 8 F]).cfg.opcodeMap.byteOf .mov ∧
    F = ((load [0x09, BitVec.ofNat 8 F]).mem.byte 1).toNat ∧
    ¬ (F < 16 ∨ (F / 16 ∈ [1, 2, 4, 5, 6] ∧ 1 ≤ F % 16 ∧ F % 16 ≤ 8)) := by decide

/-- Every LOADN, its value in the last bytes of Memory. -/
theorem witness_LoadFromMemoryBytes : ∀ p ∈ [(Opcode.load1, 1), (.load2, 2), (.load3, 3),
      (.load4, 4), (.load5, 5), (.load6, 6), (.load7, 7), (.load8, 8)],
    let s := load (BitVec.ofNat 8 p.2 :: 15 :: List.replicate p.2 0xFF)
    s.status = .running ∧ s.cfg.opcodeMap.Injective ∧ s.pc.toNat + p.2 + 2 ≤ s.mem.len ∧
    s.mem.byte s.pc.toNat = s.cfg.opcodeMap.byteOf p.1 ∧
    (s.mem.byte (s.pc.toNat + 1)).toNat = (15 : Reg).val := by decide

/-- Widths 1 and 8 at the last addresses they fit: for `MovRegisterToMemory`, `MovMemoryToRegister`,
`MovMemoryToMemory`, `MovConstantToRegister` and `MovConstantToMemory`. -/
theorem witness_MovWithMemoryOperands :
    (1 ≤ (1 : BitVec 4).toNat ∧ (1 : BitVec 4).toNat ≤ 8 ∧
      (15 : Word).toNat + (1 : BitVec 4).toNat ≤ busy.mem.len) ∧
    (1 ≤ (8 : BitVec 4).toNat ∧ (8 : BitVec 4).toNat ≤ 8 ∧
      (8 : Word).toNat + (8 : BitVec 4).toNat ≤ busy.mem.len) := by decide

/-- Widths 1 and 8 one past the last addresses they fit, and a source that does fit. -/
theorem witness_MovOutOfBoundsFaults :
    busy.mem.len < (16 : Word).toNat + (1 : BitVec 4).toNat ∧
    busy.mem.len < (9 : Word).toNat + (8 : BitVec 4).toNat ∧
    (8 : Word).toNat + (8 : BitVec 4).toNat ≤ busy.mem.len := by decide

theorem witness_DivRoundsTowardZero :
    let s := loadRegs [] 0 0x8000000000000000 1 1
    (s.x.get 1).toInt ≠ 0 ∧ ¬ ((s.x.get 0).toInt = -2 ^ 63 ∧ (s.x.get 1).toInt = -1) :=
  ⟨by decide, fun h => absurd h.2 (by decide)⟩

theorem witness_DivFaults :
    (loadRegs [] 0 5 1 0).x.get 1 = 0 ∧
    (let s := loadRegs [] 0 0x8000000000000000 1 0xFFFFFFFFFFFFFFFF
     (s.x.get 0).toInt = -2 ^ 63 ∧ (s.x.get 1).toInt = -1) := ⟨by decide, by rfl, by decide⟩

/-- No bound, and one entry short of the bound. -/
theorem witness_JumpPushesReturnAddress :
    (∀ n, busy.cfg.callDepthMax = some n → busy.cs.length ≠ n) ∧
    (let s := { busy with cfg := { Config.default with callDepthMax := some 3 } }
     ∀ n, s.cfg.callDepthMax = some n → s.cs.length ≠ n) := by
  constructor
  · intro n h; cases h
  · intro s n h; cases h; decide

theorem witness_ReturnPopsTheTop : busy.cs = [5] ++ [9] := by rfl

theorem witness_StackFaults :
    (let s := { busy with cfg := { Config.default with callDepthMax := some 2 } }
     s.cfg.callDepthMax = some 2 ∧ s.cs.length = 2) ∧ (load [0x14]).cs = [] := by decide

theorem witness_JumpThenReturnRestores :
    let s := load ([0x13, 0x0A] ++ zeros 7 ++ [0x15, 0x14])
    s.status = .running ∧ s.cfg.opcodeMap.Injective ∧ s.pc.toNat + 9 ≤ s.mem.len ∧
    s.mem.bytes s.pc.toNat 9 = encode s.cfg.opcodeMap (.jmp 10) ∧
    (10 : Word).toNat < s.mem.len ∧ s.mem.byte (10 : Word).toNat = s.cfg.opcodeMap.byteOf .ret ∧
    s.cfg.callDepthMax = none := by decide

theorem witness_IntUnregisteredSignals : busy.handler 4 = none ∧ busy.handler 6 = none := by decide

/-- The two clauses about the callback's view exclude each other and leave no third case. -/
theorem witness_IntRunsTheCallback : ∃ v, busy.handler 5 = some 9 ∧
    v = Config.callback 9 5 { busy.view with pc := busy.pc + 2 } busy.fr busy.draws ∧
    busy.view.Admissible busy.cfg ∧ (v.Admissible busy.cfg ∨ ¬ v.Admissible busy.cfg) :=
  ⟨_, by decide, rfl, ⟨⟨by decide, by decide⟩, by decide, by decide, ⟨by decide, by decide⟩⟩,
    Classical.em _⟩

/-- For `MemReadIsLittleEndian` and `MemWriteStoresLowBytes`: the last address in bounds and the first
out of bounds, at widths 1 and 8. -/
theorem witness_MemReadAndMemWrite : ∀ p ∈ [(15, 1), (8, 8)],
    1 ≤ p.2 ∧ p.2 ≤ 8 ∧ p.1 + p.2 ≤ busy.mem.len ∧ busy.mem.len < p.1 + 1 + p.2 := by decide

theorem witness_NarrowReadOfWideWrite : ∃ m', busy.mem.write 8 8 0x1122334455667788 = .ok m' ∧
    1 ≤ 3 ∧ 5 + 3 ≤ 8 := by
  refine ⟨busy.mem.writeBytes 8 (leBytes 8 0x1122334455667788), ?_, by decide, by decide⟩
  exact write_of_inBounds (by decide) _

theorem witness_MemoryFormIsCanonical : busy.mem.wf ∧
    ∃ m', busy.mem.write 4 1 0 = .ok m' ∧ m'.cells = [] :=
  ⟨⟨by decide, by decide⟩, _, write_of_inBounds (by decide) _, by decide⟩

/-- A Move to memory, a Move to a register, a Move and a DIV that fault, an INT with no entry. -/
theorem witness_EachComponentHasItsWriters :
    (∃ t, exec (.mov 1 (.const 7) (.mem 0)) busy = .next t ∧ t.mem.byte 0 = 7) ∧
    (∃ t, exec (.mov 8 (.mem 8) (.reg 1)) busy = .next t ∧ t.x.get 1 = 0) ∧
    (∃ t, exec (.mov 8 (.mem 9) (.reg 1)) busy = .next t ∧ t.fr ≠ none) ∧
    (∃ t, exec (.div 0 2 1) busy = .next t ∧ t.fr ≠ none) ∧
    (∃ t, exec (.int 4) busy = .next t ∧ busy.handler 4 = none) :=
  ⟨⟨_, rfl, by decide⟩, ⟨_, rfl, by decide⟩, ⟨_, rfl, by decide⟩, ⟨_, rfl, by decide⟩,
    _, rfl, by decide⟩

theorem witness_HaltedIsTerminal : (load [0x15]).halt.status = .halted := by rfl

theorem witness_CausesOfHalting : ∃ t, step (load [0x15]) = .next t ∧
    (load [0x15]).status = .running ∧ t.status = .halted := ⟨_, rfl, rfl, rfl⟩

theorem busy_inv : busy.Inv :=
  ⟨⟨by decide, by decide⟩, ⟨by decide, by decide⟩, by decide, by decide, ⟨by decide, by decide⟩,
    fun _ => rfl, fun _ h => by cases h⟩

theorem witness_StepKeepsInvariant : busy.Inv ∧ ∃ t, step busy = .next t := ⟨busy_inv, _, rfl⟩

theorem witness_HostOperationsKeepInvariant : busy.Inv ∧ ∃ t, busy.append 0x15 = some t :=
  ⟨busy_inv, _, rfl⟩

theorem witness_ProgramCounterNeverWraps : busy.Inv ∧ busy.status = .running ∧
    busy.pc.toNat < busy.mem.len ∧ busy.fetchDecode = .ok .nop ∧
    ∃ t, step busy = .next t ∧ t.result = some .completed :=
  ⟨busy_inv, rfl, by decide, rfl, _, rfl, rfl⟩

theorem witness_LatchIsNeverRead : (∃ t, step (load [0x12, 2, 9]) = .next t) ∧
    ∀ n, (load [0x12, 2, 9]).fetchDecode = .ok (.int n) → (load [0x12, 2, 9]).handler n = none :=
  ⟨⟨_, rfl⟩, fun _ _ => rfl⟩

theorem witness_StoredCodeIsFetchedNext :
    let s := load ([0x09, 0x68, 0x15] ++ zeros 7 ++ [0x12] ++ zeros 15)
    s.status = .running ∧ s.cfg.opcodeMap.Injective ∧ s.pc.toNat + 18 = (18 : Word).toNat ∧
    (18 : Word).toNat + 8 ≤ s.mem.len ∧
    s.mem.bytes s.pc.toNat 18 =
      encode s.cfg.opcodeMap (.mov 8 (.const 0x15) (.mem 18)) ∧
    BitVec.ofNat 8 (0x15 : Word).toNat = s.cfg.opcodeMap.byteOf .hlt := by decide

/-- Below the limit by one, at the limit, and outside the loading phase. -/
theorem witness_AppendGrowsMemoryByOne :
    (let s := { busy with cfg := { Config.default with memMax := 17 } }
     s.loading = true ∧ s.mem.len < s.cfg.memMax) ∧
    (let s := { busy with cfg := { Config.default with memMax := 16 } }
     s.cfg.memMax ≤ s.mem.len) ∧ ({ busy with loading := false } : State).loading = false := by
  decide

theorem witness_AppendedProgramStandsAtZero :
    [(0x15 : Byte)].length ≤ State.reset.cfg.memMax := by decide

end Sys2Proof.Tests
end

section
/-! PROOF. What an instruction does, case by case with names, and what each case leaves alone. -/

namespace Sys2Proof.Machine

/-- `Effect s i t`: instruction `i`, begun in `s`, ends in `t`. One constructor for each case of
`exec_cases`, so that a proof names the case it is in. -/
inductive Effect (s : State) : Instr → State → Prop
  | fault {i : Instr} (c : FaultCause) (hi : i.opcode ∈ execFaulters)
      (hc : (c.record s.pc).Wf s.cfg) : Effect s i (s.raise s.pc c)
  | nop : Effect s .nop (s.advance 1)
  | writeReg {i : Instr} (r : Reg) (v : Word) (hr : destReg i = some r) :
      Effect s i ((s.setReg r v).advance i.length)
  | store (w : BitVec 4) (src : MovSrc) (a v : Word) (ha : a.toNat + w.toNat ≤ s.mem.len) :
      Effect s (.mov w src (.mem a)) (({ s with
        mem := s.mem.writeBytes a.toNat (leBytes w.toNat v.toNat) } : State).advance
          (Instr.mov w src (.mem a)).length)
  | compare (a b : Reg) : Effect s (.cmp a b) ((s.latch (s.reg a) (s.reg b)).advance 3)
  | call (u : Word) (hd : ∀ n, s.cfg.callDepthMax = some n → s.cs.length ≠ n) :
      Effect s (.jmp u) { s with cs := s.cs ++ [s.pc + 9], pc := u }
  | ret (l : List Word) (v : Word) (hl : s.cs = l ++ [v]) : Effect s .ret { s with cs := l, pc := v }
  | halt : Effect s .hlt (s.advance 1).halt
  | unhandled (n : Byte) (hn : s.handler n = none) :
      Effect s (.int n) ((s.advance 2).signal (.unhandledInterrupt n))
  | callback (n : Byte) (g : Handler) (hg : s.handler n = some g) :
      Effect s (.int n) ((s.advance 2).invoke g n)

/-- Whatever an instruction does is one of these effects. -/
theorem effect_of_exec {i : Instr} {s t : State} (h : exec i s = .next t) : Effect s i t := by
  rcases exec_cases h with ⟨hi, c, rfl, hc⟩ | ⟨rfl, rfl⟩ | ⟨r, v, hr, rfl⟩ |
    ⟨w, src, a, v, rfl, -, ha, rfl⟩ | ⟨a, b, rfl, rfl⟩ | ⟨u, rfl, hd, rfl⟩ | ⟨rfl, l, v, hl, rfl⟩ |
    ⟨rfl, rfl⟩ | ⟨n, rfl, hn, rfl⟩ | ⟨n, g, rfl, hg, rfl⟩
  · exact .fault c hi hc
  · exact .nop
  · exact .writeReg r v hr
  · exact .store w src a v ha
  · exact .compare a b
  · exact .call u hd
  · exact .ret l v hl
  · exact .halt
  · exact .unhandled n hn
  · exact .callback n g hg

/-- The fault record after an instruction: the old one, unless it faulted. -/
theorem Effect.fr {i : Instr} {s t : State} (h : Effect s i t) :
    t.fr = s.fr ∨ ∃ c, t = s.raise s.pc c := by
  cases h with
  | fault c _ _ => exact .inr ⟨c, rfl⟩
  | callback n g _ => exact .inl (by simp)
  | nop | writeReg | store | compare | call | ret | halt | unhandled => exact .inl rfl

/-- The status flag after an instruction: the old one, unless it faulted, was HLT, or ran a
callback. -/
theorem Effect.status {i : Instr} {s t : State} (h : Effect s i t) :
    t.status = s.status ∨ (∃ c, t = s.raise s.pc c) ∨ i = .hlt ∨
      ∃ n, i = .int n ∧ s.handler n ≠ none := by
  cases h with
  | fault c _ _ => exact .inr (.inl ⟨c, rfl⟩)
  | halt => exact .inr (.inr (.inl rfl))
  | callback n g hg => exact .inr (.inr (.inr ⟨n, rfl, by simp [hg]⟩))
  | nop | writeReg | store | compare | call | ret | unhandled => exact .inl rfl

end Sys2Proof.Machine
end

section
/-! PROOF. The invariant of the machine, operation by operation, and that every step keeps it
(10_state.md R14, R20, R22 to R24). -/

namespace Sys2Proof.Machine

/-- Why bytes at the program counter do not decode is why the decoder refuses the window. -/
theorem decode_of_fetchDecode_error {s : State} {e : DecodeError} (h : s.fetchDecode = .error e) :
    decode s.cfg.opcodeMap s.window = .error e := by
  unfold State.fetchDecode at h
  split at h
  · cases h
  · next he => rw [he, Except.error.inj h]

/-- The invariant speaks of Memory, stack, table, parameters, status and fault record alone; a state
that shares them, or is halted, meets it too. -/
theorem State.Inv.congr {s t : State} (h : s.Inv) (hmem : t.mem = s.mem) (hcs : t.cs = s.cs)
    (hit : t.it = s.it) (hcfg : t.cfg = s.cfg) (hfr : t.fr = s.fr)
    (hst : t.status = .running → s.status = .running) : t.Inv where
  cfg := hcfg ▸ h.cfg
  mem := hmem ▸ h.mem
  memLen := by rw [hmem, hcfg]; exact h.memLen
  depth := by rw [hcs, hcfg]; exact h.depth
  table := hit ▸ h.table
  running hr := hfr.trans (h.running (hst hr))
  record := by rw [hfr, hcfg]; exact h.record

theorem State.Inv.beginStep {s : State} (h : s.Inv) : s.beginStep.Inv :=
  h.congr rfl rfl rfl rfl rfl id

theorem State.Inv.notRunning {s : State} (h : s.Inv) : s.notRunning.Inv :=
  h.congr rfl rfl rfl rfl rfl id

theorem State.Inv.deadEnd {s : State} (h : s.Inv) : s.deadEnd.Inv :=
  h.congr rfl rfl rfl rfl rfl nofun

theorem State.Inv.advance {s : State} (h : s.Inv) (n : Nat) : (s.advance n).Inv :=
  h.congr rfl rfl rfl rfl rfl id

theorem State.Inv.halt {s : State} (h : s.Inv) : s.halt.Inv :=
  h.congr rfl rfl rfl rfl rfl nofun

/-- A fault halts the machine, so a record of R103 is all it needs. -/
theorem State.Inv.raise {s : State} (h : s.Inv) {a : Word} {c : FaultCause}
    (hc : (c.record a).Wf s.cfg) : (s.raise a c).Inv where
  cfg := h.cfg
  mem := h.mem
  memLen := h.memLen
  depth := h.depth
  table := h.table
  running := nofun
  record r hr := by cases hr; exact hc

/-- Replacing Memory by a canonical one within `MEM_MAX` keeps the invariant. -/
theorem State.Inv.withMem {s : State} (h : s.Inv) {m : Memory} (hm : m.wf)
    (hl : m.len ≤ s.cfg.memMax) : ({ s with mem := m } : State).Inv :=
  { h with mem := hm, memLen := hl }

/-- Replacing the stack by one within `CALL_DEPTH_MAX`, and the program counter by any, keeps the
invariant. -/
theorem State.Inv.withStack {s : State} (h : s.Inv) {cs : List Word} (pc : Word)
    (hd : DepthOk s.cfg.callDepthMax cs) : ({ s with cs := cs, pc := pc } : State).Inv :=
  { h with depth := hd }

/-- A stack within the bound and not at it has room for one more entry (10_state.md R20). -/
theorem depthOk_push {bound : Option Nat} {cs : List Word} (h : DepthOk bound cs)
    (hne : ∀ n, bound = some n → cs.length ≠ n) (v : Word) : DepthOk bound (cs ++ [v]) := by
  intro n hn
  have hle := h n hn
  have hlt := hne n hn
  rw [List.length_append, List.length_singleton]
  omega

/-- A stack without its top entry is within the bound if the stack is. -/
theorem depthOk_pop {bound : Option Nat} {l : List Word} {v : Word}
    (h : DepthOk bound (l ++ [v])) : DepthOk bound l := by
  intro n hn
  have hle := h n hn
  rw [List.length_append] at hle
  omega

/-- A callback of a machine with no fault recorded keeps the invariant: an admissible view brings
the forms it needs, and the fault record stays none (43_system.md R99). -/
theorem State.Inv.invoke {s : State} (h : s.Inv) (hfr : s.fr = none) (g : Handler) (n : Byte) :
    (s.invoke g n).Inv := by
  unfold State.invoke
  generalize Config.callback g n s.view s.fr s.draws = v
  rcases applyCallback_cases s v with ⟨⟨hmem, hlen, hdepth, htable⟩, he⟩ | ⟨-, he⟩ <;> rw [he]
  · exact { cfg := h.cfg, mem := hmem, memLen := hlen, depth := hdepth, table := htable,
            running := fun _ => hfr, record := h.record }
  · exact h.congr rfl rfl rfl rfl rfl id

/-- Every instruction begun while running keeps the invariant. -/
theorem Effect.inv {i : Instr} {s t : State} (h : Effect s i t) (hs : s.Inv)
    (hrun : s.status = .running) : t.Inv := by
  cases h with
  | fault c _ hc => exact hs.raise hc
  | nop => exact hs.advance 1
  | writeReg r v _ => exact hs.congr rfl rfl rfl rfl rfl id
  | store w src a v ha =>
    refine (hs.withMem (writeBytes_wf hs.mem ?_) ?_).advance _
    · rwa [leBytes_length]
    · rw [writeBytes_len]; exact hs.memLen
  | compare a b => exact hs.congr rfl rfl rfl rfl rfl id
  | call u hd => exact hs.withStack u (depthOk_push hs.depth hd _)
  | ret l v hl => exact hs.withStack v (depthOk_pop (hl ▸ hs.depth))
  | halt => exact (hs.advance 1).halt
  | unhandled n _ => exact hs.congr rfl rfl rfl rfl rfl id
  | callback n g _ => exact (hs.advance 2).invoke (hs.running hrun) g n

/-- Settles O49: the halted step, the dead-end, the instruction and the bytes that are none each keep
the invariant. -/
theorem stepKeepsInvariant : Obligations.StepKeepsInvariant := by
  unfold Obligations.StepKeepsInvariant
  intro s t hs h
  rcases step_cases h with ⟨-, rfl⟩ | ⟨-, -, rfl⟩ | ⟨hrun, -, i, -, he⟩ | ⟨-, -, e, he, rfl⟩
  · exact hs.notRunning
  · exact hs.deadEnd
  · exact (effect_of_exec he).inv hs.beginStep hrun
  · exact hs.beginStep.raise (decode_error_recordWf (decode_of_fetchDecode_error he) _ _ _)

/-- Settles O51: an append stays within `MEM_MAX` by its guard, a registered index is a byte, and
Reset leaves an empty stack and no fault record. -/
theorem hostOperationsKeepInvariant : Obligations.HostOperationsKeepInvariant := by
  unfold Obligations.HostOperationsKeepInvariant
  refine ⟨fun b s t hs h => ?append, fun i g s hs => ?register, fun s hs => ?reset⟩
  case append =>
    unfold State.append at h
    split at h
    · next hroom =>
      cases h
      exact hs.withMem (append_wf hs.mem b) hroom.2
    · cases h
  case register =>
    obtain ⟨hsorted, hbelow⟩ := hs.table
    refine { hs with table := ⟨sparsePut_sorted _ _ hsorted, fun e he => ?_⟩ }
    rcases mem_sparsePut he with rfl | hold
    · exact i.isLt
    · exact hbelow e hold
  case reset =>
    exact { cfg := hs.cfg, mem := hs.mem, memLen := hs.memLen, table := hs.table,
            depth := fun n _ => Nat.zero_le n, running := fun _ => rfl, record := nofun }

end Sys2Proof.Machine
end

section
/-! PROOF. When the status flag and the fault record change along a step and a run
(10_state.md R22, R23). -/

namespace Sys2Proof.Machine

/-- Settles O12: the halted step and the dead-end keep the record, an instruction keeps it unless it
faults, and bytes that do not decode fault. -/
theorem onlyFaultsWriteTheFaultRecord : Obligations.OnlyFaultsWriteTheFaultRecord := by
  unfold Obligations.OnlyFaultsWriteTheFaultRecord
  intro s t h hnot
  rcases step_cases h with ⟨-, rfl⟩ | ⟨-, -, rfl⟩ | ⟨-, -, i, -, he⟩ | ⟨-, -, e, -, rfl⟩
  · rfl
  · rfl
  · rcases (effect_of_exec he).fr with hfr | ⟨c, rfl⟩
    · exact hfr
    · exact absurd rfl (hnot c.code)
  · exact absurd rfl (hnot _)

/-- Settles O48: the dead-end and the fault of bytes that do not decode are two of the cases; an
instruction begun while running changes the status only in the others. -/
theorem causesOfHalting : Obligations.CausesOfHalting := by
  unfold Obligations.CausesOfHalting
  intro s t h hrun hhalt
  rcases step_cases h with ⟨hs, -⟩ | ⟨-, hd, -⟩ | ⟨-, -, i, hi, he⟩ | ⟨-, -, e, -, rfl⟩
  · simp [hs] at hrun
  · exact .inl hd
  · rcases (effect_of_exec he).status with hst | ⟨c, rfl⟩ | rfl | ⟨n, rfl, hn⟩
    · simp [hst, hrun] at hhalt
    · exact .inr (.inl ⟨c.code, rfl⟩)
    · exact .inr (.inr (.inl hi))
    · exact .inr (.inr (.inr ⟨n, hi, hn⟩))
  · exact .inr (.inl ⟨_, rfl⟩)

theorem SameUnit.refl (s : State) : SameUnit s s := ⟨rfl, rfl, rfl, rfl, rfl, rfl, rfl, rfl, rfl⟩

/-- A step requested while halted touches only the model's own fields, so what agrees with the state
after it agrees with the state before it. -/
theorem SameUnit.of_notRunning {s t : State} (h : SameUnit s.notRunning t) : SameUnit s t := h

/-- Settles O47, by induction on the number of steps: each is the step of a halted machine. -/
theorem haltedIsTerminal : Obligations.HaltedIsTerminal := by
  unfold Obligations.HaltedIsTerminal
  intro k
  induction k with
  | zero => exact fun s _ => ⟨s, run_zero s, SameUnit.refl s⟩
  | succ k ih =>
    intro s hs
    obtain ⟨t, hrun, hsame⟩ := ih s.notRunning hs
    exact ⟨t, (run_succ (step_halted hs) k).trans hrun, hsame.of_notRunning⟩

end Sys2Proof.Machine
end

section
/-! PROOF. The canonical form of Memory determines it (assumption log 11). -/

namespace Sys2Proof.Machine

/-- No byte of a canonical Memory stands at or past its end. -/
theorem byte_eq_zero_of_len_le {m : Memory} (h : m.wf) {a : Nat} (ha : m.len ≤ a) :
    m.byte a = 0#8 := by
  unfold Memory.byte
  cases hf : sparseFind a m.cells with
  | none => rfl
  | some b => exact absurd (h.2 _ (mem_of_sparseFind hf)).2 (Nat.not_lt.2 ha)

/-- A canonical Memory lists an address exactly where its byte is not 0. -/
theorem sparseFind_cells {m : Memory} (h : m.wf) (a : Nat) :
    sparseFind a m.cells = if m.byte a = 0#8 then none else some (m.byte a) := by
  unfold Memory.byte
  cases hf : sparseFind a m.cells with
  | none => simp
  | some b =>
    have hb : b ≠ 0#8 := (h.2 _ (mem_of_sparseFind hf)).1
    simp [hb]

/-- Canonical memories with the same length and bytes are equal. -/
theorem Memory.ext_of_wf {m m' : Memory} (h : m.wf) (h' : m'.wf) (hl : m.len = m'.len)
    (hb : ∀ a < m.len, m.byte a = m'.byte a) : m = m' := by
  have hbyte : ∀ a, m.byte a = m'.byte a := by
    intro a
    by_cases ha : a < m.len
    · exact hb a ha
    · rw [byte_eq_zero_of_len_le h (by omega), byte_eq_zero_of_len_le h' (by omega)]
  have hcells : m.cells = m'.cells := sparse_ext h.1 h'.1 fun a => by
    rw [sparseFind_cells h, sparseFind_cells h', hbyte]
  cases m
  cases m'
  exact congrArg₂ Memory.mk hl hcells

/-- A bounds-checked write keeps the canonical form. -/
theorem write_wf {m m' : Memory} {a n : Nat} {v : Word} (h : m.wf) (hw : m.write a n v = .ok m') :
    m'.wf := by
  rcases write_cases m a n v with ⟨hb, he⟩ | ⟨-, he⟩ <;> rw [he] at hw <;> cases hw
  exact writeBytes_wf h (by rwa [leBytes_length])

/-- Settles O45. -/
theorem memoryFormIsCanonical : Obligations.MemoryFormIsCanonical := by
  unfold Obligations.MemoryFormIsCanonical
  exact ⟨fun _ _ _ _ _ h hw => write_wf h hw, fun _ b h => append_wf h b,
    fun _ _ h h' hl hb => Memory.ext_of_wf h h' hl hb⟩

end Sys2Proof.Machine
end

section
/-! PROOF. The frame of every instruction, component by component (10_state.md R17, R20 to R24). -/

namespace Sys2Proof.Machine

/-! The frame lemmas leave out an INT that finds an entry: its callback may write these components
(43_system.md R99). -/

section Frame

variable {i : Instr} {s t : State} (h : Effect s i t)
  (hint : ∀ n, i = .int n → s.handler n = none)

include h hint

/-- An instruction keeps every register but the one it is given to write. -/
theorem Effect.reg_frame {r : Reg} (hr : destReg i ≠ some r) : t.x.get r = s.x.get r := by
  cases h with
  | writeReg d v hd =>
    have hne : r ≠ d := fun he => hr (he ▸ hd)
    exact (reg_setReg s d r v).trans (if_neg hne)
  | callback n g hg => simp [hint n rfl] at hg
  | fault | nop | store | compare | call | ret | halt | unhandled => rfl

/-- An instruction that is given no register to write keeps the Register File. -/
theorem Effect.x_frame (hi : destReg i = none) : t.x = s.x := by
  apply Vector.ext
  intro r hr
  exact h.reg_frame hint (r := ⟨r, hr⟩) (by simp [hi])

/-- What an instruction does to Memory: nothing, or it is a Move that writes the `w` bytes at its
destination address, in bounds. -/
theorem Effect.mem :
    t.mem = s.mem ∨ ∃ w src a v, i = .mov w src (.mem a) ∧ a.toNat + w.toNat ≤ s.mem.len ∧
      t.mem = s.mem.writeBytes a.toNat (leBytes w.toNat v) := by
  cases h with
  | store w src a v ha => exact .inr ⟨w, src, a, _, rfl, ha, rfl⟩
  | callback n g hg => simp [hint n rfl] at hg
  | fault | nop | writeReg | compare | call | ret | halt | unhandled => exact .inl rfl

/-- No instruction changes the length of Memory or writes at or past it (20_memory.md R39). -/
theorem Effect.mem_end :
    t.mem.len = s.mem.len ∧ ∀ a, s.mem.len ≤ a → t.mem.byte a = s.mem.byte a := by
  rcases h.mem hint with hm | ⟨w, src, ad, v, -, hb, hm⟩ <;> rw [hm]
  · exact ⟨rfl, fun _ _ => rfl⟩
  · exact ⟨writeBytes_len _ _ _, fun a ha =>
      byte_writeBytes_of_lt (.inr (by rw [leBytes_length]; omega))⟩

/-- Only JMP and RET write the stack. -/
theorem Effect.cs (hj : i.opcode ≠ .jmp) (hr : i.opcode ≠ .ret) : t.cs = s.cs := by
  cases h with
  | call => exact absurd rfl hj
  | ret => exact absurd rfl hr
  | callback n g hg => simp [hint n rfl] at hg
  | fault | nop | writeReg | store | compare | halt | unhandled => rfl

/-- Only CMP writes the latch. -/
theorem Effect.cl (hc : i.opcode ≠ .cmp) : t.cl = s.cl := by
  cases h with
  | compare => exact absurd rfl hc
  | callback n g hg => simp [hint n rfl] at hg
  | fault | nop | writeReg | store | call | ret | halt | unhandled => rfl

/-- An instruction faults and changes nothing else, or it leaves the fault record, and the status flag
unless it is HLT. -/
theorem Effect.fault_or_status :
    (t.fr = s.fr ∧ (i.opcode ≠ .hlt → t.status = s.status)) ∨
      (i.opcode ∈ execFaulters ∧ ∃ c, t = s.raise s.pc c) := by
  cases h with
  | fault c hi _ => exact .inr ⟨hi, c, rfl⟩
  | halt => exact .inl ⟨rfl, fun hne => absurd rfl hne⟩
  | callback n g hg => simp [hint n rfl] at hg
  | nop | writeReg | store | compare | call | ret | unhandled => exact .inl ⟨rfl, fun _ => rfl⟩

/-- No instruction writes the Interrupt Table or the parameters. -/
theorem Effect.it_cfg : t.it = s.it ∧ t.cfg = s.cfg := by
  cases h with
  | callback n g hg => simp [hint n rfl] at hg
  | fault | nop | writeReg | store | compare | call | ret | halt | unhandled => exact ⟨rfl, rfl⟩

/-- An instruction that completes, and is neither a control transfer nor a handled INT, moves the
program counter by its length (10_state.md R18). -/
theorem Effect.pc (hj : ∀ u, i ≠ .jmp u) (hr : i ≠ .ret) (hres : t.result = some .completed) :
    t.pc = s.pc + BitVec.ofNat 64 i.length := by
  cases h with
  | fault c => simp at hres
  | call u => exact absurd rfl (hj u)
  | ret => exact absurd rfl hr
  | callback n g hg => simp [hint n rfl] at hg
  | nop | writeReg | store | compare | halt | unhandled => rfl

end Frame

/-- Settles O46: the frames above, the first two read off the instruction's constructor. -/
theorem eachComponentHasItsWriters : Obligations.EachComponentHasItsWriters := by
  unfold Obligations.EachComponentHasItsWriters
  intro i s t he hint
  have h := effect_of_exec he
  have hdest : ∀ d, destReg i = some d → ∀ r, r ≠ d → t.x.get r = s.x.get r := fun d hd r hr =>
    h.reg_frame hint fun hr' => hr (Option.some.inj (hr'.symm.trans hd))
  refine ⟨?registers, ?memory, h.mem_end hint, h.cs hint, h.cl hint, ?fault, h.it_cfg hint⟩
  case registers =>
    cases i with
    | nop | cmp | jmp | ret | hlt | int | cpuid => exact h.x_frame hint rfl
    | mov w src dst =>
      cases dst with
      | mem a => exact h.x_frame hint rfl
      | reg d => exact hdest d rfl
    | load1 | load2 | load3 | load4 | load5 | load6 | load7 | load8
    | add | sub | mul | div | not | and | or | xor => exact hdest _ rfl
  case memory =>
    rcases h.mem hint with hm | ⟨w, src, ad, v, rfl, -, hm⟩
    · split
      · exact fun b _ => by rw [hm]
      · exact hm
    · intro b hb
      rw [hm]
      exact byte_writeBytes_of_lt (by rwa [leBytes_length])
  case fault =>
    rcases h.fault_or_status hint with hkeep | ⟨hi, c, rfl⟩
    · exact .inl hkeep
    · exact .inr ⟨hi, c, rfl⟩

end Sys2Proof.Machine
end

section
/-! PROOF. Bytes that decode are the encoding of the instruction they decode to, for every opcode and
operand form (30_encoding.md R54 to R60). -/

namespace Sys2Proof

open Machine

/-- A legal flags byte that gives an operand in memory or a literal has a width of 1 to 8
(30_encoding.md R60). -/
theorem flagsWidth_of_legalFlags {F : Byte} (h : legalFlags F = true)
    (hk : flagsSk F ≠ 0#2 ∨ flagsDk F ≠ 0#2) : widthOk (flagsWidth F) = true := by
  revert F; decide

/-- A Move of operands that fit is well-formed where its width is legal or not used. -/
theorem movWellFormed_of {w : BitVec 4} {src : MovSrc} {dst : MovDst}
    (hs : src.wellFormed w = true) (hd : dst.wellFormed w = true)
    (hw : src.kind ≠ 0#2 ∨ dst.kind ≠ 0#2 → widthOk w = true) : movWellFormed w src dst = true := by
  have hused : src.kind ≠ 0#2 ∨ dst.kind ≠ 0#2 →
      (widthOk w && src.wellFormed w && dst.wellFormed w) = true := fun hk => by
    rw [hw hk, hs, hd]
    rfl
  match src, dst with
  | .reg _, .reg _ => rfl
  | .reg _, .mem _ => exact hused (.inr nofun)
  | .mem _, _ => exact hused (.inl nofun)
  | .const _, _ => exact hused (.inl nofun)

/-- `i` is an instruction of opcode `k` whose operand bytes are what the decoder used of `c` to get to
`c'`. -/
def DecodedFrom (k : Opcode) (c c' : Cursor) (i : Instr) : Prop :=
  i.wellFormed = true ∧ i.opcode = k ∧ c.rest = i.operandBytes ++ c'.rest

/-- Where format FL decodes, the value it gives has the bytes it used, for every instruction `mk` of
that format. -/
theorem decodeLoad_decodedFrom {k : Opcode} {n : Nat} {mk : Reg → BitVec (8 * n) → Instr}
    (hmk : ∀ d v, (mk d v).wellFormed = true ∧ (mk d v).opcode = k ∧
      (mk d v).operandBytes = encodeReg d :: leBytes n v.toNat) {c c' : Cursor} {i : Instr}
    (h : decodeLoad n (fun d v => mk d (BitVec.ofNat (8 * n) v)) c = .ok (i, c')) :
    DecodedFrom k c c' i := by
  obtain ⟨d, bs, rfl, rfl, hr⟩ := decodeLoad_ok h
  obtain ⟨hw, ho, hb⟩ := hmk d (BitVec.ofNat _ (leValue bs))
  refine ⟨hw, ho, ?_⟩
  rw [hb, BitVec.toNat_ofNat, Nat.mod_eq_of_lt (leValue_lt bs), leBytes_leValue, hr]

/-- Where a field of `n` bytes is fetched, its value has the bytes used. -/
theorem fetch_operandBytes {n v : Nat} {c c' : Cursor} (h : fetch n c = .ok (v, c')) :
    c.rest = leBytes n (BitVec.ofNat (8 * n) v).toNat ++ c'.rest := by
  obtain ⟨bs, rfl, rfl, hr, -⟩ := fetch_ok h
  rw [BitVec.toNat_ofNat, Nat.mod_eq_of_lt (leValue_lt bs), leBytes_leValue, hr]

/-- Where one byte is fetched, it stands in front of the rest. -/
theorem fetch_one_ok {v : Nat} {c c' : Cursor} (h : fetch 1 c = .ok (v, c')) :
    c.rest = BitVec.ofNat 8 v :: c'.rest := by
  have hb := fetch_operandBytes h
  rwa [leBytes_succ, leBytes_zero, BitVec.ofNat_toNat, BitVec.setWidth_eq] at hb

/-- Where format FM decodes, the Move is legal and has the bytes used (30_encoding.md R57 to R60). -/
theorem decodeMov_ok {c c' : Cursor} {i : Instr} (h : decodeMov c = .ok (i, c')) :
    DecodedFrom .mov c c' i := by
  obtain ⟨⟨f, c1⟩, h1, h⟩ := bind_eq_ok h
  have hc1 := fetch_one_ok h1
  dsimp only at h
  generalize BitVec.ofNat 8 f = F at h hc1
  split at h
  case isFalse => cases h
  case isTrue hF =>
    have hw := flagsWidth_of_legalFlags hF
    obtain ⟨⟨src, c2⟩, h2, h⟩ := bind_eq_ok h
    obtain ⟨⟨dst, c3⟩, h3, h⟩ := bind_eq_ok h
    cases h
    obtain ⟨hsk, hsr, hsw⟩ := decodeSrc_ok h2 fun hk => (widthOk_iff.1 (hw (.inl hk))).2
    obtain ⟨hdk, hdr, hdw⟩ := decodeDst_ok h3 fun hk => (widthOk_iff.1 (hw (.inr hk))).2
    have hflags : moveFlags (flagsWidth F) src dst = F := by
      rw [moveFlags, hsk, hdk, flags_append]
    refine ⟨movWellFormed_of hsw hdw fun hk => hw (by rwa [hsk, hdk] at hk), rfl, ?_⟩
    rw [hc1, hsr, hdr, Instr.operandBytes, hflags]
    simp

/-- Where the operands of an opcode decode, the instruction is of that opcode, well-formed, and has
the bytes used (30_encoding.md R54). -/
theorem decodeOperands_ok {k : Opcode} {c c' : Cursor} {i : Instr}
    (h : decodeOperands k c = .ok (i, c')) : DecodedFrom k c c' i := by
  cases k with
  | nop | ret | hlt | cpuid => cases h; exact ⟨rfl, rfl, rfl⟩
  | load1 => exact decodeLoad_decodedFrom (n := 1) (mk := .load1) (fun _ _ => ⟨rfl, rfl, rfl⟩) h
  | load2 => exact decodeLoad_decodedFrom (n := 2) (mk := .load2) (fun _ _ => ⟨rfl, rfl, rfl⟩) h
  | load3 => exact decodeLoad_decodedFrom (n := 3) (mk := .load3) (fun _ _ => ⟨rfl, rfl, rfl⟩) h
  | load4 => exact decodeLoad_decodedFrom (n := 4) (mk := .load4) (fun _ _ => ⟨rfl, rfl, rfl⟩) h
  | load5 => exact decodeLoad_decodedFrom (n := 5) (mk := .load5) (fun _ _ => ⟨rfl, rfl, rfl⟩) h
  | load6 => exact decodeLoad_decodedFrom (n := 6) (mk := .load6) (fun _ _ => ⟨rfl, rfl, rfl⟩) h
  | load7 => exact decodeLoad_decodedFrom (n := 7) (mk := .load7) (fun _ _ => ⟨rfl, rfl, rfl⟩) h
  | load8 => exact decodeLoad_decodedFrom (n := 8) (mk := .load8) (fun _ _ => ⟨rfl, rfl, rfl⟩) h
  | mov => exact decodeMov_ok h
  | add | sub | mul | div =>
    obtain ⟨x, y, z, rfl, hr⟩ := decodeReg3_ok h
    exact ⟨rfl, rfl, hr⟩
  | and | or | xor | cmp =>
    obtain ⟨x, y, rfl, hr⟩ := decodeReg2_ok h
    exact ⟨rfl, rfl, hr⟩
  | not =>
    obtain ⟨⟨a, c1⟩, h1, h⟩ := bind_eq_ok h
    cases h
    exact ⟨rfl, rfl, (fetchReg_ok h1).1⟩
  | jmp =>
    obtain ⟨⟨t, c1⟩, h1, h⟩ := bind_eq_ok h
    cases h
    exact ⟨rfl, rfl, fetch_operandBytes h1⟩
  | int =>
    obtain ⟨⟨n, c1⟩, h1, h⟩ := bind_eq_ok h
    cases h
    exact ⟨rfl, rfl, fetch_one_ok h1⟩

/-- Bytes that decode are a well-formed instruction's encoding and the bytes left over. -/
theorem decode_ok {m : OpcodeMap} {bs rest : List Byte} {i : Instr}
    (h : decode m bs = .ok (i, rest)) : i.wellFormed = true ∧ bs = encode m i ++ rest := by
  cases bs with
  | nil => cases h
  | cons op bs =>
    simp only [decode] at h
    split at h
    · cases h
    · next k hk =>
      split at h
      · next i' c hc =>
        cases h
        obtain ⟨hw, ho, hr⟩ := decodeOperands_ok hc
        refine ⟨hw, ?_⟩
        rw [encode, ho, byteOf_of_lookup hk, List.cons_append, ← hr]
      · cases h

open Laws in
/-- The length of every well-formed instruction's encoding (30_encoding.md R53, R59). -/
theorem encodedLength : ∀ i : Instr, EncodedLength.Statement i
  | .nop => EncodedLength.nop
  | .load1 d v => EncodedLength.load1 d v
  | .load2 d v => EncodedLength.load2 d v
  | .load3 d v => EncodedLength.load3 d v
  | .load4 d v => EncodedLength.load4 d v
  | .load5 d v => EncodedLength.load5 d v
  | .load6 d v => EncodedLength.load6 d v
  | .load7 d v => EncodedLength.load7 d v
  | .load8 d v => EncodedLength.load8 d v
  | .mov w src dst => EncodedLength.mov w src dst
  | .add a b c => EncodedLength.add a b c
  | .sub a b c => EncodedLength.sub a b c
  | .mul a b c => EncodedLength.mul a b c
  | .div a b c => EncodedLength.div a b c
  | .not a => EncodedLength.not a
  | .and a b => EncodedLength.and a b
  | .or a b => EncodedLength.or a b
  | .xor a b => EncodedLength.xor a b
  | .cmp a b => EncodedLength.cmp a b
  | .jmp t => EncodedLength.jmp t
  | .ret => EncodedLength.ret
  | .hlt => EncodedLength.hlt
  | .int n => EncodedLength.int n
  | .cpuid => EncodedLength.cpuid

/-- A decoding uses as many bytes as the instruction is long. -/
theorem length_of_decode {m : OpcodeMap} {bs rest : List Byte} {i : Instr}
    (h : decode m bs = .ok (i, rest)) : bs.length = i.length + rest.length := by
  obtain ⟨hw, rfl⟩ := decode_ok h
  rw [List.length_append, (encodedLength i hw m).1]

end Sys2Proof
end

section
/-! PROOF. The program counter after an instruction that completes (10_state.md R18, R19). -/

namespace Sys2Proof.Machine

/-- The instruction at the program counter ends at or before the end of Memory. -/
theorem fetchDecode_inMemory {s : State} {i : Instr} (h : s.fetchDecode = .ok i)
    (hpc : s.pc.toNat < s.mem.len) : s.pc.toNat + i.length ≤ s.mem.len := by
  unfold State.fetchDecode at h
  split at h
  · next j rest hd =>
    cases h
    have hlen := length_of_decode hd
    rw [State.window, bytes_length] at hlen
    omega
  · cases h

/-- A step over bytes that decode runs the instruction they decode to (30_encoding.md R47). -/
theorem step_decoded {s : State} {i : Instr} (h : s.status = .running)
    (hd : s.pc.toNat < s.mem.len) (hi : s.fetchDecode = .ok i) : step s = exec i s.beginStep := by
  simp [step, h, State.AtDeadEnd, Nat.not_le.2 hd, hi]

/-- Settles O52: the program counter moves by the length, and the sum is at most the length of
Memory, which is below `2^64`. -/
theorem programCounterNeverWraps : Obligations.ProgramCounterNeverWraps := by
  unfold Obligations.ProgramCounterNeverWraps
  intro s t i hinv hrun hpc hi h hres hj hr hint
  have hmem := fetchDecode_inMemory hi hpc
  have hlen := hinv.memLen
  have hmax := hinv.cfg.2
  rw [step_decoded hrun hpc hi] at h
  rw [(effect_of_exec h).pc hint hj hr hres, beginStep_pc, BitVec.toNat_add,
    BitVec.toNat_ofNat]
  omega

end Sys2Proof.Machine
end

section
/-! PROOF. No operation reads the Comparison Latch or the model's output fields (10_state.md R21,
R26). A state that differs in the latch alone is `s.latch v u`. -/

namespace Sys2Proof.Machine

theorem reg_latch (s : State) (v u : Word) (r : Reg) : (s.latch v u).reg r = s.reg r := rfl

theorem advance_latch (s : State) (v u : Word) (n : Nat) :
    (s.latch v u).advance n = (s.advance n).latch v u := rfl

theorem readSrc_latch (w : Nat) (src : MovSrc) (s : State) (v u : Word) :
    readSrc w src (s.latch v u) = readSrc w src s := by
  cases src <;> rfl

theorem writeDst_latch (w : Nat) (dst : MovDst) (k : Word) (s : State) (v u : Word) :
    writeDst w dst k (s.latch v u) = (writeDst w dst k s).map (State.latch v u) := by
  cases dst with
  | reg r => rfl
  | mem a =>
    simp only [writeDst, latch_mem]
    cases s.mem.write a.toNat w k <;> rfl

theorem push_latch (k : Word) (s : State) (v u : Word) :
    (s.latch v u).push k = (s.push k).map (State.latch v u) := by
  simp only [State.push, latch_cfg, latch_cs]
  cases s.cfg.callDepthMax with
  | none => rfl
  | some n => by_cases hn : s.cs.length = n <;> simp [hn] <;> rfl

theorem pop_latch (s : State) (v u : Word) :
    (s.latch v u).pop = s.pop.map (Prod.map id (State.latch v u)) := by
  simp only [State.pop, latch_cs]
  cases s.cs.getLast? <;> rfl

/-- An instruction that makes the same state but for the latch, or raises the same fault, ends in the
same state but for the latch. -/
theorem settle_latch {s t : State} {r r' : Except FaultCause State} {v u : Word}
    (hr : r' = r.map (State.latch v u)) (h : s.settle r = .next t) :
    (s.latch v u).settle r' = .next (t.latch v u) := by
  subst hr
  cases r <;> cases h <;> rfl

theorem execMov_latch {w : BitVec 4} {src : MovSrc} {dst : MovDst} {s t : State} (v u : Word)
    (h : execMov w src dst s = .next t) :
    execMov w src dst (s.latch v u) = .next (t.latch v u) := by
  refine settle_latch ?_ h
  rw [readSrc_latch]
  split
  · cases readSrc w.toNat src s with
    | error c => rfl
    | ok k =>
      simp only [writeDst_latch]
      cases writeDst w.toNat dst k s <;> rfl
  · rfl

theorem arith3_latch {f : Word → Word → Except FaultCause Word} {a b c : Reg} {s t : State}
    (v u : Word) (h : s.arith3 f a b c = .next t) :
    (s.latch v u).arith3 f a b c = .next (t.latch v u) := by
  rcases arith3_cases f a b c s with ⟨k, hk, he⟩ | ⟨e, hk, he⟩
  all_goals
    rw [he] at h
    cases h
    rw [State.arith3, reg_latch, reg_latch, hk]
    rfl

theorem execJmp_latch {k : Word} {s t : State} (v u : Word) (h : execJmp k s = .next t) :
    execJmp k (s.latch v u) = .next (t.latch v u) := by
  refine settle_latch ?_ h
  rw [advance_latch, push_latch, latch_pc]
  cases (s.advance 9).push (s.advance 9).pc <;> rfl

theorem execRet_latch {s t : State} (v u : Word) (h : execRet s = .next t) :
    execRet (s.latch v u) = .next (t.latch v u) := by
  refine settle_latch ?_ h
  rw [advance_latch, pop_latch]
  cases (s.advance 1).pop <;> rfl

/-- From a state that differs in the latch alone, an instruction that runs no callback ends in a state
that differs in the latch alone: CMP has set it, every other instruction has kept it. -/
theorem exec_latch {i : Instr} {s t : State} (h : exec i s = .next t)
    (hint : ∀ n, i = .int n → s.handler n = none) (v u : Word) :
    ∃ v' u', exec i (s.latch v u) = .next (t.latch v' u') := by
  cases i with
  | cmp a b => cases h; exact ⟨s.reg a, s.reg b, rfl⟩
  | mov w src dst => exact ⟨v, u, execMov_latch v u h⟩
  | add => exact ⟨v, u, arith3_latch (f := addWord) v u h⟩
  | sub => exact ⟨v, u, arith3_latch (f := subWord) v u h⟩
  | mul => exact ⟨v, u, arith3_latch (f := mulWord) v u h⟩
  | div => exact ⟨v, u, arith3_latch (f := divWord) v u h⟩
  | jmp k => exact ⟨v, u, execJmp_latch v u h⟩
  | ret => exact ⟨v, u, execRet_latch v u h⟩
  | int n =>
    refine ⟨v, u, ?_⟩
    have hn : (s.latch v u).handler n = none := hint n rfl
    simp only [exec, execInt, hint n rfl] at h
    simp only [exec, execInt, hn]
    cases h
    rfl
  | nop | load1 | load2 | load3 | load4 | load5 | load6 | load7 | load8 | not | and | or | xor | hlt
  | cpuid => cases h; exact ⟨v, u, rfl⟩

/-- Settles O53: fetching and decoding read no latch, so both steps are the same case of
`step_cases`. -/
theorem latchIsNeverRead : Obligations.LatchIsNeverRead := by
  unfold Obligations.LatchIsNeverRead
  intro s t c h hint
  suffices hs : ∃ v u, step (s.latch c.a c.b) = .next (t.latch v u) by
    obtain ⟨v, u, hs⟩ := hs
    exact ⟨⟨v, u⟩, hs⟩
  rcases step_cases h with ⟨hs, rfl⟩ | ⟨hs, hd, rfl⟩ | ⟨hs, hd, i, hi, he⟩ | ⟨hs, hd, e, he, rfl⟩
  · exact ⟨c.a, c.b, step_halted hs⟩
  · exact ⟨c.a, c.b, step_deadEnd hs hd⟩
  · rw [step_decoded (s := s.latch c.a c.b) hs hd hi]
    exact exec_latch he (fun n hn => hint n (hn ▸ hi)) c.a c.b
  · exact ⟨c.a, c.b, step_error (s := s.latch c.a c.b) hs hd he⟩

/-- Settles O54: a step reads status, program counter, Memory and parameters, and every branch writes
the output fields anew. -/
theorem outputsAreNeverRead : Obligations.OutputsAreNeverRead := by
  unfold Obligations.OutputsAreNeverRead
  intro s r g l
  generalize hs' : ({ s with result := r, signals := g, loading := l } : State) = s'
  have hstatus : s'.status = s.status := by rw [← hs']
  have hmem : s'.mem = s.mem := by rw [← hs']
  have hpc : s'.pc = s.pc := by rw [← hs']
  have hfetch : s'.fetchDecode = s.fetchDecode := by rw [← hs']; rfl
  have hbegin : s'.beginStep = s.beginStep := by rw [← hs']; rfl
  have hnot : s'.notRunning = s.notRunning := by rw [← hs']; rfl
  have hdead : s'.deadEnd = s.deadEnd := by rw [← hs']; rfl
  simp only [step, State.AtDeadEnd, hstatus, hmem, hpc, hfetch, hbegin, hnot, hdead]

end Sys2Proof.Machine
end

section
/-! PROOF. What `MemRead` and `MemWrite` give byte by byte, and what Append adds (20_memory.md R30 to
R33, R38). -/

namespace Sys2Proof.Machine

/-- Byte `i` of a word, in the order it is stored, is its bits from `8i` up (00_scope.md R11). -/
theorem leBytes_getElem_eq_extractLsb' (n : Nat) (v : Word) (i : Nat)
    (h : i < (leBytes n v.toNat).length) : (leBytes n v.toNat)[i] = v.extractLsb' (8 * i) 8 := by
  rw [leBytes_getElem, BitVec.extractLsb', Nat.shiftRight_eq_div_pow, Nat.pow_mul]

/-- The bytes of a value are its low bytes and then those of what is left of it. -/
theorem leBytes_add (k n v : Nat) :
    leBytes (k + n) v = leBytes k v ++ leBytes n (v / 2 ^ (8 * k)) := by
  apply List.ext_getElem (by simp)
  intro i h _
  by_cases hi : i < k
  · rw [List.getElem_append_left (by simpa using hi), leBytes_getElem, leBytes_getElem]
  · have hpow : 256 ^ i = 2 ^ (8 * k) * 256 ^ (i - k) := by
      rw [Nat.pow_mul, ← Nat.pow_add]
      congr 1
      omega
    rw [List.getElem_append_right (by simpa using hi), leBytes_getElem, leBytes_getElem,
      leBytes_length, Nat.div_div_eq_div_mul, hpow]

/-- The byte at every address after the low `n` bytes of a word were stored at `a`. -/
theorem byte_writeBytes_leBytes (m : Memory) (a n : Nat) (v : Word) (b : Nat) :
    (m.writeBytes a (leBytes n v.toNat)).byte b =
      if a ≤ b ∧ b < a + n then v.extractLsb' (8 * (b - a)) 8 else m.byte b := by
  rw [byte_writeBytes, leBytes_length]
  split
  · next hb =>
    have hi : b - a < (leBytes n v.toNat).length := by rw [leBytes_length]; omega
    rw [List.getD_eq_getElem _ _ hi, leBytes_getElem_eq_extractLsb']
  · rfl

/-- Settles O42: at most eight bytes hold a value below `2^64`, so none of their sum is lost. -/
theorem memReadIsLittleEndian : Obligations.MemReadIsLittleEndian := by
  unfold Obligations.MemReadIsLittleEndian
  intro m a n _ hn
  refine ⟨fun hb => ⟨_, read_of_inBounds hb, ?_⟩, fun hb => read_of_not_inBounds (Nat.not_le.2 hb)⟩
  have hlt : leValue (m.bytes a n) < 2 ^ 64 := calc
    leValue (m.bytes a n) < 2 ^ (8 * (m.bytes a n).length) := leValue_lt _
    _ ≤ 2 ^ 64 := Nat.pow_le_pow_right (by decide) (by rw [bytes_length]; omega)
  rw [BitVec.toNat_ofNat, Nat.mod_eq_of_lt hlt, leValue_bytes]

/-- Settles O43: the written range holds the word's bytes, every other byte is the old one. -/
theorem memWriteStoresLowBytes : Obligations.MemWriteStoresLowBytes := by
  unfold Obligations.MemWriteStoresLowBytes
  intro m a n v _ _
  refine ⟨fun hb => ⟨_, write_of_inBounds hb v, writeBytes_len .., fun j hj => ?_, fun b hb => ?_⟩,
    fun hb => write_of_not_inBounds (Nat.not_le.2 hb) v⟩
  · rw [byte_writeBytes_leBytes, if_pos (by omega), Nat.add_sub_cancel_left]
  · rw [byte_writeBytes_leBytes, if_neg (by omega)]

/-- Bytes inside a range that holds a value are the bytes of that part of it. -/
theorem bytes_inside_leBytes {m : Memory} {a w v k n : Nat} (hv : m.bytes a w = leBytes w v)
    (h : k + n ≤ w) : m.bytes (a + k) n = leBytes n (v / 2 ^ (8 * k)) := by
  obtain ⟨j, rfl⟩ := Nat.exists_eq_add_of_le h
  rw [Nat.add_assoc k, bytes_add, leBytes_add k] at hv
  have htail := List.append_inj_right hv (by simp)
  rw [bytes_add, leBytes_add n] at htail
  exact List.append_inj_left htail (by simp)

/-- Settles O44: the bytes read are those of the value shifted down by `k` bytes, and `n` of them
hold its low `8n` bits. -/
theorem narrowReadOfWideWrite : Obligations.NarrowReadOfWideWrite := by
  unfold Obligations.NarrowReadOfWideWrite
  intro m m' a k n v _ hkn hw
  rcases write_cases m a 8 v with ⟨hb, he⟩ | ⟨-, he⟩
  case inr => rw [he] at hw; cases hw
  rw [he] at hw
  cases hw
  have hv := bytes_writeBytes m a (leBytes 8 v.toNat)
  rw [leBytes_length] at hv
  rw [read_of_inBounds (by rw [writeBytes_len]; omega), bytes_inside_leBytes hv hkn,
    leValue_leBytes]
  congr 1
  apply BitVec.eq_of_toNat_eq
  rw [BitVec.toNat_ofNat, BitVec.toNat_setWidth, BitVec.extractLsb'_toNat,
    Nat.shiftRight_eq_div_pow]

/-- Below `MEM_MAX` in the loading phase the host's Append grows Memory (20_memory.md R38). -/
theorem State.append_of_room {s : State} (hl : s.loading = true) (hroom : s.mem.len < s.cfg.memMax)
    (b : Byte) : s.append b = some { s with mem := s.mem.append b } :=
  if_pos ⟨hl, hroom⟩

/-- The host's Append is refused exactly outside the loading phase or at `MEM_MAX`
(20_memory.md R38). -/
theorem State.append_eq_none {s : State} {b : Byte} :
    s.append b = none ↔ s.loading = false ∨ s.cfg.memMax ≤ s.mem.len := by
  by_cases h : s.loading = true ∧ s.mem.len < s.cfg.memMax
  · obtain ⟨hl, hroom⟩ := h
    simp [State.append_of_room hl hroom, hl, hroom]
  · have hn : s.append b = none := if_neg h
    rw [not_and_or, Bool.not_eq_true, Nat.not_lt] at h
    exact iff_of_true hn h

/-- Settles O58: the guard of Append is room in the loading phase, and Memory's own append sets one
byte past its end. -/
theorem appendGrowsMemoryByOne : Obligations.AppendGrowsMemoryByOne := by
  unfold Obligations.AppendGrowsMemoryByOne
  intro b s
  refine ⟨fun hl hroom => ⟨_, State.append_of_room hl hroom b, append_len .., ?_, fun a ha => ?_⟩,
    State.append_eq_none.2⟩
  · rw [byte_append, if_pos rfl]
  · rw [byte_append, if_neg ha]

end Sys2Proof.Machine
end

section
/-! PROOF. Every well-formed instruction's encoding decodes to it, so code stored at the program
counter is what the step runs (30_encoding.md R47, R54 to R60; 20_memory.md R43). -/

namespace Sys2Proof

open Machine

/-- A load of any width decodes from its operand bytes, for every instruction `mk` of format FL. -/
theorem decodeLoad_encode {n : Nat} (mk : Reg → BitVec (8 * n) → Instr) (d : Reg)
    (v : BitVec (8 * n)) (off : Nat) (rest : List Byte) :
    decodeLoad n (fun d v => mk d (BitVec.ofNat (8 * n) v))
        { off := off, rest := encodeReg d :: leBytes n v.toNat ++ rest } =
      .ok (mk d v, { off := off + 1 + n, rest := rest }) := by
  simp only [decodeLoad, List.cons_append, fetchReg_encodeReg, fetch_leBytes v.isLt, bind,
    Except.bind, BitVec.ofNat_toNat, BitVec.setWidth_eq]

/-- A source operand that fits decodes from its bytes (30_encoding.md R58). -/
theorem decodeSrc_encode {F : Byte} {src : MovSrc} (hk : flagsSk F = src.kind)
    (hw : src.wellFormed (flagsWidth F) = true) (off : Nat) (rest : List Byte) :
    decodeSrc F { off := off, rest := src.encode (flagsWidth F) ++ rest } =
      .ok (src, { off := off + src.length (flagsWidth F), rest := rest }) := by
  cases src with
  | reg r => simp [decodeSrc, hk, MovSrc.kind, MovSrc.encode, MovSrc.length, fetchReg_encodeReg,
      bind, Except.bind]
  | mem v | const v =>
    have hv := fetch_leBytes (fitsBytes_iff.1 hw) rest off
    simp [decodeSrc, hk, MovSrc.kind, MovSrc.encode, MovSrc.length, hv, bind, Except.bind]

/-- A destination operand that fits decodes from its bytes (30_encoding.md R58). -/
theorem decodeDst_encode {F : Byte} {dst : MovDst} (hk : flagsDk F = dst.kind)
    (hw : dst.wellFormed (flagsWidth F) = true) (off : Nat) (rest : List Byte) :
    decodeDst F { off := off, rest := dst.encode (flagsWidth F) ++ rest } =
      .ok (dst, { off := off + dst.length (flagsWidth F), rest := rest }) := by
  cases dst with
  | reg r => simp [decodeDst, hk, MovDst.kind, MovDst.encode, MovDst.length, fetchReg_encodeReg,
      bind, Except.bind]
  | mem v =>
    have hv := fetch_leBytes (fitsBytes_iff.1 hw) rest off
    simp [decodeDst, hk, MovDst.kind, MovDst.encode, MovDst.length, hv, bind, Except.bind]

/-- Both operands of a well-formed Move fit its width. -/
theorem operands_wellFormed {w : BitVec 4} {src : MovSrc} {dst : MovDst}
    (h : movWellFormed w src dst = true) : src.wellFormed w = true ∧ dst.wellFormed w = true := by
  have hfit (h : (widthOk w && src.wellFormed w && dst.wellFormed w) = true) :
      src.wellFormed w = true ∧ dst.wellFormed w = true := by
    simp only [Bool.and_eq_true] at h
    obtain ⟨⟨-, hs⟩, hd⟩ := h
    exact ⟨hs, hd⟩
  match src, dst with
  | .reg _, .reg _ => exact ⟨rfl, rfl⟩
  | .reg _, .mem _ => exact hfit h
  | .mem _, _ => exact hfit h
  | .const _, _ => exact hfit h

/-- A well-formed Move decodes from its operand bytes: its flags byte is legal and gives back kinds
and width (30_encoding.md R57 to R60). -/
theorem decodeMov_encode {w : BitVec 4} {src : MovSrc} {dst : MovDst}
    (h : movWellFormed w src dst = true) (off : Nat) (rest : List Byte) :
    decodeMov { off := off, rest := (Instr.mov w src dst).operandBytes ++ rest } =
      .ok (.mov w src dst,
        { off := off + 1 + src.length w + dst.length w, rest := rest }) := by
  obtain ⟨hs, hd⟩ := operands_wellFormed h
  have hlegal := legalFlags_of_wellFormed h
  have hsk : flagsSk (moveFlags w src dst) = src.kind := flagsSk_append ..
  have hdk : flagsDk (moveFlags w src dst) = dst.kind := flagsDk_append ..
  have hwidth : flagsWidth (moveFlags w src dst) = w := flagsWidth_append ..
  simp only [Instr.operandBytes]
  generalize moveFlags w src dst = F at hlegal hsk hdk hwidth
  subst hwidth
  simp only [decodeMov, List.cons_append, List.append_assoc, fetch_one, bind, Except.bind,
    BitVec.ofNat_toNat, BitVec.setWidth_eq, hlegal, if_true, decodeSrc_encode hsk hs,
    decodeDst_encode hdk hd]

/-- The operands of every well-formed instruction decode from its operand bytes
(30_encoding.md R54). -/
theorem decodeOperands_encode {i : Instr} (h : i.wellFormed = true) (off : Nat)
    (rest : List Byte) :
    ∃ off', decodeOperands i.opcode { off := off, rest := i.operandBytes ++ rest } =
      .ok (i, { off := off', rest := rest }) := by
  cases i with
  | nop | ret | hlt | cpuid => exact ⟨_, rfl⟩
  | load1 d v => exact ⟨_, decodeLoad_encode (n := 1) .load1 d v off rest⟩
  | load2 d v => exact ⟨_, decodeLoad_encode (n := 2) .load2 d v off rest⟩
  | load3 d v => exact ⟨_, decodeLoad_encode (n := 3) .load3 d v off rest⟩
  | load4 d v => exact ⟨_, decodeLoad_encode (n := 4) .load4 d v off rest⟩
  | load5 d v => exact ⟨_, decodeLoad_encode (n := 5) .load5 d v off rest⟩
  | load6 d v => exact ⟨_, decodeLoad_encode (n := 6) .load6 d v off rest⟩
  | load7 d v => exact ⟨_, decodeLoad_encode (n := 7) .load7 d v off rest⟩
  | load8 d v => exact ⟨_, decodeLoad_encode (n := 8) .load8 d v off rest⟩
  | mov w src dst => exact ⟨_, decodeMov_encode h off rest⟩
  | add | sub | mul | div =>
    simp [Instr.opcode, Instr.operandBytes, decodeOperands, decodeReg3, fetchReg_encodeReg, bind,
      Except.bind]
  | and | or | xor | cmp =>
    simp [Instr.opcode, Instr.operandBytes, decodeOperands, decodeReg2, fetchReg_encodeReg, bind,
      Except.bind]
  | not =>
    simp [Instr.opcode, Instr.operandBytes, decodeOperands, decodeReg1, fetchReg_encodeReg, bind,
      Except.bind]
  | jmp t =>
    simp [Instr.opcode, Instr.operandBytes, decodeOperands, fetch_leBytes (n := 8) t.isLt, bind,
      Except.bind]
  | int n =>
    simp [Instr.opcode, Instr.operandBytes, decodeOperands, fetch_one, bind, Except.bind]

/-- A well-formed instruction decodes from its encoding, whatever bytes follow (30_encoding.md
R53 to R60). -/
theorem decode_encode {m : OpcodeMap} (hm : m.Injective) {i : Instr} (h : i.wellFormed = true)
    (rest : List Byte) : decode m (encode m i ++ rest) = .ok (i, rest) := by
  obtain ⟨off, hops⟩ := decodeOperands_encode h 1 rest
  simp only [encode, List.cons_append, decode, lookup_byteOf hm, hops]

end Sys2Proof

namespace Sys2Proof.Machine

/-- What a step decodes where a well-formed instruction's encoding stands at the program counter. -/
theorem fetchDecode_stored {s : State} {i : Instr} (hm : s.cfg.opcodeMap.Injective)
    (hw : i.wellFormed = true) (hlen : s.pc.toNat + i.length ≤ s.mem.len)
    (hb : s.mem.bytes s.pc.toNat i.length = encode s.cfg.opcodeMap i) :
    s.fetchDecode = .ok i := by
  obtain ⟨-, -, hmax⟩ := encodedLength i hw s.cfg.opcodeMap
  obtain ⟨n, hn⟩ := Nat.exists_eq_add_of_le
    (show i.length ≤ min maxInstrLength (s.mem.len - s.pc.toNat) by omega)
  have hwindow : s.window =
      encode s.cfg.opcodeMap i ++ s.mem.bytes (s.pc.toNat + i.length) n := by
    rw [State.window, hn, bytes_add, hb]
  rw [State.fetchDecode, hwindow, decode_encode hm hw]

/-- A step of a running machine runs the well-formed instruction whose encoding stands at the program
counter (20_memory.md R43; 30_encoding.md R47). -/
theorem step_stored {s : State} {i : Instr} (hrun : s.status = .running)
    (hm : s.cfg.opcodeMap.Injective) (hw : i.wellFormed = true)
    (hlen : s.pc.toNat + i.length ≤ s.mem.len)
    (hb : s.mem.bytes s.pc.toNat i.length = encode s.cfg.opcodeMap i) :
    step s = exec i s.beginStep := by
  obtain ⟨-, hpos, -⟩ := encodedLength i hw s.cfg.opcodeMap
  exact step_decoded hrun (by omega) (fetchDecode_stored hm hw hlen hb)

end Sys2Proof.Machine
end

section
/-! PROOF. A store into the bytes ahead changes what the next step runs (20_memory.md R43;
70_reset_and_hazards.md R126). -/

namespace Sys2Proof.Machine

/-- A Move of a literal to memory, its width legal and its store in bounds, stores the literal's low
bytes and goes on (40_data_movement.md R80). -/
theorem exec_movConstMem {w : BitVec 4} (hw : widthOk w = true) (k a : Word) {s : State}
    (hb : a.toNat + w.toNat ≤ s.mem.len) :
    exec (.mov w (.const k) (.mem a)) s = .next (({ s with
      mem := s.mem.writeBytes a.toNat (leBytes w.toNat k.toNat) } : State).advance
        (moveLength w (.const k) (.mem a))) := by
  have hlegal : legalFlags (moveFlags w (.const k) (.mem a)) = true := by
    rw [legalFlags_moveFlags, hw, Bool.or_true]
  show execMov w (.const k) (.mem a) s = _
  simp only [execMov, hlegal, if_true, readSrc, writeDst, write_of_inBounds hb, settle_ok]

/-- Where the byte of HLT stands at the program counter, the step halts past it
(42_control_transfer.md R94). -/
theorem step_hlt {s : State} (hrun : s.status = .running) (hm : s.cfg.opcodeMap.Injective)
    (hpc : s.pc.toNat < s.mem.len) (hb : s.mem.byte s.pc.toNat = s.cfg.opcodeMap.byteOf .hlt) :
    step s = .next (s.beginStep.advance 1).halt :=
  step_stored (i := .hlt) hrun hm rfl hpc (congrArg (· :: []) hb)

theorem advance_advance (s : State) (j n : Nat) :
    (s.advance j).advance n = s.advance (j + n) := by
  simp only [State.advance, BitVec.add_assoc, BitVec.ofNat_add]

/-- Every 8-byte Move of a literal to memory has an encoding. -/
theorem movConstMem8_wellFormed (k a : Word) :
    (Instr.mov 8 (.const k) (.mem a)).wellFormed = true := by
  have hfit (v : Word) : fitsBytes 8 v = true := fitsBytes_iff.2 v.isLt
  simp only [Instr.wellFormed, movWellFormed, MovSrc.wellFormed, MovDst.wellFormed, hfit,
    Bool.and_true]
  rfl

/-- Settles O55: the first step stores `k` right after itself, so the second finds HLT there, the low
byte of `k`. -/
theorem storedCodeIsFetchedNext : Obligations.StoredCodeIsFetchedNext := by
  unfold Obligations.StoredCodeIsFetchedNext
  intro s k a hrun hm hpc hlen hb hk
  have hfirst : step s = .next (({ s.beginStep with
      mem := s.mem.writeBytes a.toNat (leBytes 8 k.toNat) } : State).advance 18) :=
    (step_stored hrun hm (movConstMem8_wellFormed k a)
      (show s.pc.toNat + 18 ≤ s.mem.len by omega) hb).trans (exec_movConstMem rfl k a hlen)
  have hbytes := byte_writeBytes_leBytes s.mem a.toNat 8 k
  have hmlen := writeBytes_len s.mem a.toNat (leBytes 8 k.toNat)
  generalize s.mem.writeBytes a.toNat (leBytes 8 k.toNat) = m at hfirst hbytes hmlen
  have hnext : s.pc + BitVec.ofNat 64 18 = a := by bv_omega
  have hhlt : m.byte a.toNat = s.cfg.opcodeMap.byteOf .hlt := by
    rw [hbytes, if_pos (by omega), Nat.sub_self]
    exact hk
  have hsecond := step_hlt (s := ({ s.beginStep with mem := m } : State).advance 18) hrun hm
    (by rw [advance_pc, beginStep_pc, hnext, advance_mem]; show a.toNat < m.len; omega)
    (by rw [advance_pc, beginStep_pc, hnext]; exact hhlt)
  refine ⟨m, ?_, hmlen, hbytes⟩
  rw [run_succ hfirst, run_succ hsecond, run_zero]
  show Host.Outcome.next
    ((({ s.beginStep with mem := m } : State).advance 18).advance 1).halt = _
  rw [advance_advance]
  rfl

end Sys2Proof.Machine
end

section
/-! PROOF. How far the decoder looks: no instruction's operands take more than 17 bytes, and what is
wrong with them is never the opcode (30_encoding.md R50 to R61). -/

namespace Sys2Proof

open Machine

/-- The cursor with more bytes behind its own. -/
def Cursor.extend (c : Cursor) (more : List Byte) : Cursor := { c with rest := c.rest ++ more }

/-- `p` reads operands of at most `k` bytes: where so many are left, bytes behind them change only
the rest, and `p` never blames the opcode. -/
structure OperandReader {α : Type} (k : Nat) (p : Cursor → Except DecodeError (α × Cursor)) :
    Prop where
  extend : ∀ c more, k ≤ c.rest.length →
    p (c.extend more) = (p c).map (Prod.map id (·.extend more))
  used : ∀ {c a c'}, p c = .ok (a, c') → c.rest.length ≤ c'.rest.length + k
  notOpcode : ∀ c op, p c ≠ .error (.invalidOpcode op)

namespace OperandReader

variable {α β : Type} {j k : Nat} {p q : Cursor → Except DecodeError (α × Cursor)}

theorem mono (hp : OperandReader j p) (h : j ≤ k) : OperandReader k p where
  extend c more hk := hp.extend c more (h.trans hk)
  used he := (hp.used he).trans (by omega)
  notOpcode := hp.notOpcode

theorem pure (a : α) : OperandReader k (fun c => .ok (a, c)) where
  extend _ _ _ := rfl
  used he := by cases he; exact Nat.le_add_right _ _
  notOpcode _ _ := nofun

theorem error {e : DecodeError} (he : ∀ op, e ≠ .invalidOpcode op) :
    OperandReader (α := α) k (fun _ => .error e) where
  extend _ _ _ := rfl
  used := nofun
  notOpcode _ op h := he op (Except.error.inj h)

/-- Two readers in sequence use what both use. -/
theorem bind {f : α × Cursor → Except DecodeError (β × Cursor)} (hp : OperandReader j p)
    (hf : ∀ a, OperandReader k (fun c => f (a, c))) :
    OperandReader (k + j) (fun c => p c >>= f) where
  extend c more hk := by
    simp only [hp.extend c more (by omega)]
    cases hpc : p c with
    | error e => rfl
    | ok ac =>
      have hused := hp.used hpc
      exact (hf ac.1).extend ac.2 more (by omega)
  used he := by
    obtain ⟨⟨a, c⟩, hpc, hfc⟩ := bind_eq_ok he
    have hused := hp.used hpc
    have hused' := (hf a).used hfc
    omega
  notOpcode c op he := by
    rcases bind_eq_error he with hpc | ⟨⟨a, c⟩, -, hfc⟩
    · exact hp.notOpcode c op hpc
    · exact (hf a).notOpcode c op hfc

/-- A reader whose answer is only rewritten uses no more. -/
theorem map {f : α × Cursor → Except DecodeError (β × Cursor)} {g : α → β}
    (hp : OperandReader j p) (hf : ∀ a c, f (a, c) = .ok (g a, c)) :
    OperandReader j (fun c => p c >>= f) :=
  (hp.bind fun a => by
    simpa only [hf] using OperandReader.pure (k := 0) (g a)).mono (Nat.zero_add j).le

theorem ite {φ : Prop} [Decidable φ] (hp : φ → OperandReader k p) (hq : ¬ φ → OperandReader k q) :
    OperandReader k (fun c => if φ then p c else q c) := by
  by_cases h : φ
  · simpa only [if_pos h] using hp h
  · simpa only [if_neg h] using hq h

end OperandReader

theorem fetch_reader (n : Nat) : OperandReader n (fetch n) where
  extend c more hn := by
    simp [fetch, Cursor.extend, hn, Nat.le_add_right_of_le hn, List.take_append_of_le_length hn,
      List.drop_append_of_le_length hn, Except.map]
  used he := by
    obtain ⟨bs, hl, -, hr, -⟩ := fetch_ok he
    rw [hr, List.length_append, hl, Nat.add_comm]
  notOpcode c op he := nomatch (fetch_error he).2

theorem fetchReg_reader : OperandReader 1 fetchReg :=
  (fetch_reader 1).bind (k := 0) fun r => by
    by_cases h : r < 16
    · simpa only [dif_pos h] using OperandReader.pure _
    · simpa only [dif_neg h] using OperandReader.error (by nofun)

theorem decodeLoad_reader (n : Nat) (mk : Reg → Nat → Instr) :
    OperandReader (n + 1) (decodeLoad n mk) :=
  fetchReg_reader.bind fun _ => (fetch_reader n).map fun _ _ => rfl

theorem decodeReg3_reader (mk : Reg → Reg → Reg → Instr) : OperandReader 3 (decodeReg3 mk) :=
  fetchReg_reader.bind fun _ => fetchReg_reader.bind fun _ => fetchReg_reader.map fun _ _ => rfl

theorem decodeReg2_reader (mk : Reg → Reg → Instr) : OperandReader 2 (decodeReg2 mk) :=
  fetchReg_reader.bind fun _ => fetchReg_reader.map fun _ _ => rfl

theorem decodeReg1_reader (mk : Reg → Instr) : OperandReader 1 (decodeReg1 mk) :=
  fetchReg_reader.map fun _ _ => rfl

/-- A Move's source under a legal flags byte takes at most 8 bytes (30_encoding.md R59, R60). -/
theorem decodeSrc_reader {F : Byte} (hF : legalFlags F = true) : OperandReader 8 (decodeSrc F) := by
  have hwidth (hk : flagsSk F ≠ 0#2) : (flagsWidth F).toNat ≤ 8 :=
    (widthOk_iff.1 (flagsWidth_of_legalFlags hF (.inl hk))).2
  refine .ite (fun _ => ?reg) fun hk => .ite (fun _ => ?mem) fun _ =>
    .ite (fun _ => ?const) fun _ => .error (by nofun)
  case reg => exact .mono (.map fetchReg_reader fun _ _ => rfl) (by decide)
  case mem => exact .mono (.map (fetch_reader _) fun _ _ => rfl) (hwidth hk)
  case const => exact .mono (.map (fetch_reader _) fun _ _ => rfl) (hwidth hk)

/-- A Move's destination under a legal flags byte takes at most 8 bytes (30_encoding.md R59,
R60). -/
theorem decodeDst_reader {F : Byte} (hF : legalFlags F = true) : OperandReader 8 (decodeDst F) := by
  refine .ite (fun _ => ?reg) fun hk => .ite (fun _ => ?mem) fun _ => .error (by nofun)
  case reg => exact .mono (.map fetchReg_reader fun _ _ => rfl) (by decide)
  case mem =>
    exact .mono (.map (fetch_reader _) fun _ _ => rfl)
      (widthOk_iff.1 (flagsWidth_of_legalFlags hF (.inr hk))).2

theorem decodeMov_reader : OperandReader 17 decodeMov :=
  (fetch_reader 1).bind (k := 16) fun _ => .ite
    (fun hF => (decodeSrc_reader hF).bind (k := 8) fun _ =>
      (decodeDst_reader hF).map fun _ _ => rfl)
    fun _ => .error (by nofun)

/-- The operands of every opcode take at most 17 bytes (30_encoding.md R53, R59). -/
theorem decodeOperands_reader (k : Opcode) : OperandReader 17 (decodeOperands k) := by
  cases k with
  | nop | ret | hlt | cpuid => exact .pure _
  | load1 | load2 | load3 | load4 | load5 | load6 | load7 | load8 =>
    unfold decodeOperands
    exact .mono (decodeLoad_reader _ _) (by decide)
  | mov => exact decodeMov_reader
  | add | sub | mul | div => exact .mono (decodeReg3_reader _) (by decide)
  | and | or | xor | cmp => exact .mono (decodeReg2_reader _) (by decide)
  | not => exact .mono (decodeReg1_reader _) (by decide)
  | jmp => exact .mono (.map (fetch_reader 8) fun _ _ => rfl) (by decide)
  | int => exact .mono (.map (fetch_reader 1) fun _ _ => rfl) (by decide)

/-- Bytes behind the first 18 change nothing of what is decoded (30_encoding.md R59). -/
theorem decode_append_of_length {m : OpcodeMap} {bs : List Byte} (h : bs.length = maxInstrLength)
    (more : List Byte) :
    (decode m (bs ++ more)).map Prod.fst = (decode m bs).map Prod.fst := by
  cases bs with
  | nil => cases h
  | cons op bs =>
    simp only [List.cons_append, decode]
    cases m.lookup op with
    | none => rfl
    | some k =>
      have hext := (decodeOperands_reader k).extend { off := 1, rest := bs } more
        (Nat.le_of_eq (Nat.succ.inj h).symm)
      simp only [Cursor.extend] at hext
      simp only [hext]
      cases decodeOperands k { off := 1, rest := bs } <;> rfl

end Sys2Proof

namespace Sys2Proof.Machine

/-- All the bytes from the program counter to the end of Memory (30_encoding.md R50). -/
def State.stream (s : State) : List Byte := s.mem.bytes s.pc.toNat (s.mem.len - s.pc.toNat)

/-- A step decodes what all the bytes up to the end of Memory decode to. -/
theorem fetchDecode_eq_stream (s : State) :
    s.fetchDecode = (decode s.cfg.opcodeMap s.stream).map Prod.fst := by
  have hwin : s.fetchDecode = (decode s.cfg.opcodeMap s.window).map Prod.fst := by
    unfold State.fetchDecode
    cases decode s.cfg.opcodeMap s.window <;> rfl
  rw [hwin, State.window, State.stream]
  rcases Nat.le_total (s.mem.len - s.pc.toNat) maxInstrLength with h | h
  · rw [Nat.min_eq_right h]
  · obtain ⟨n, hn⟩ := Nat.exists_eq_add_of_le h
    rw [Nat.min_eq_left h, hn, bytes_add, decode_append_of_length (bytes_length ..)]

/-- Settles O7: the window is the stream, or the stream's first 18 bytes, behind which no decoding
looks. -/
theorem fetchWindowSuffices : Obligations.FetchWindowSuffices := by
  unfold Obligations.FetchWindowSuffices
  exact fetchDecode_eq_stream

end Sys2Proof.Machine
end

section
/-! PROOF. Encoding and decoding are inverse to each other, and the first two bytes decide the
length (30_encoding.md R53 to R61). -/

namespace Sys2Proof

open Machine

/-- Settles O1: the lookup undoes the map, and each operand field gives back its value. -/
theorem decodeEncodeRoundTrip : Obligations.DecodeEncodeRoundTrip := by
  unfold Obligations.DecodeEncodeRoundTrip
  intro m i rest hm hw
  exact decode_encode hm hw rest

/-- Settles O2: what the lookup found has the first byte, and the operands' bytes are those used. -/
theorem decodedBytesAreTheEncoding : Obligations.DecodedBytesAreTheEncoding := by
  unfold Obligations.DecodedBytesAreTheEncoding
  intro m bs rest i h
  exact decode_ok h

/-- What a decoding rests on: the opcode its first byte selects, and operands that decode. -/
theorem decodeOperands_of_decode {m : OpcodeMap} {op : Byte} {bs rest : List Byte} {i : Instr}
    (h : decode m (op :: bs) = .ok (i, rest)) :
    ∃ k c, m.lookup op = some k ∧ decodeOperands k { off := 1, rest := bs } = .ok (i, c) ∧
      c.rest = rest := by
  simp only [decode] at h
  split at h
  · cases h
  · next k hk =>
    split at h
    · next i' c hc => cases h; exact ⟨k, c, hk, hc, rfl⟩
    · cases h

/-- The opcode of a decoded instruction is the one its first byte selects (30_encoding.md R52). -/
theorem lookup_of_decode {m : OpcodeMap} {op : Byte} {bs rest : List Byte} {i : Instr}
    (h : decode m (op :: bs) = .ok (i, rest)) :
    m.lookup op = some i.opcode ∧ bs = i.operandBytes ++ rest := by
  obtain ⟨k, c, hk, hc, rfl⟩ := decodeOperands_of_decode h
  obtain ⟨-, rfl, hr⟩ := decodeOperands_ok hc
  exact ⟨hk, hr⟩

/-- The length of a Move's operand of this kind and width (30_encoding.md R59). -/
def operandLength (kind : BitVec 2) (w : BitVec 4) : Nat := if kind = 0#2 then 1 else w.toNat

theorem operandLength_src (w : BitVec 4) (src : MovSrc) :
    operandLength src.kind w = src.length w := by
  cases src <;> rfl

theorem operandLength_dst (w : BitVec 4) (dst : MovDst) :
    operandLength dst.kind w = dst.length w := by
  cases dst <;> rfl

/-- The length that an opcode and the byte after it decide (30_encoding.md R61): the byte matters
for a Move alone. -/
def lengthFrom (F : Byte) : Opcode → Nat
  | .nop | .ret | .hlt | .cpuid => 1
  | .not | .int => 2
  | .load1 | .and | .or | .xor | .cmp => 3
  | .load2 | .add | .sub | .mul | .div => 4
  | .load3 => 5
  | .load4 => 6
  | .load5 => 7
  | .load6 => 8
  | .load7 | .jmp => 9
  | .load8 => 10
  | .mov => 2 + operandLength (flagsSk F) (flagsWidth F) + operandLength (flagsDk F) (flagsWidth F)

/-- An instruction has the length its opcode and the byte after it decide. -/
theorem length_eq_lengthFrom {i : Instr} {F : Byte} {bs rest : List Byte}
    (h : F :: bs = i.operandBytes ++ rest) : i.length = lengthFrom F i.opcode := by
  cases i with
  | mov w src dst =>
    obtain rfl : F = moveFlags w src dst := List.head_eq_of_cons_eq h
    show moveLength w src dst = _
    simp only [lengthFrom, Instr.opcode, moveLength, moveFlags, flagsSk_append, flagsDk_append,
      flagsWidth_append, operandLength_src, operandLength_dst]
  | _ => rfl

/-- Settles O3: both lengths are the one that the first two bytes decide. -/
theorem lengthFollowsFromFirstTwoBytes : Obligations.LengthFollowsFromFirstTwoBytes := by
  unfold Obligations.LengthFollowsFromFirstTwoBytes
  intro m b0 b1 r1 r2 t1 t2 i1 i2 h1 h2
  obtain ⟨hk1, hb1⟩ := lookup_of_decode h1
  obtain ⟨hk2, hb2⟩ := lookup_of_decode h2
  have hk : i1.opcode = i2.opcode := Option.some.inj (hk1.symm.trans hk2)
  obtain ⟨-, hmin, hmax⟩ := encodedLength i1 (decode_ok h1).1 m
  refine ⟨?_, hmin, hmax, length_of_decode h1⟩
  rw [length_eq_lengthFrom hb1, length_eq_lengthFrom hb2, hk]

end Sys2Proof
end

section
/-! PROOF. What a step comes to: the decoded instruction, the dead-end, or a fault; always a next
state (30_encoding.md R47, R48). -/

namespace Sys2Proof.Machine

/-- Settles O6: the window begins with the encoding, which decodes whatever follows it. -/
theorem stepRunsStoredEncoding : Obligations.StepRunsStoredEncoding := by
  unfold Obligations.StepRunsStoredEncoding
  intro s i hrun hm hw hlen hb
  exact step_stored hrun hm hw hlen hb

/-- Settles O5: the machine is neither halted nor at a dead-end. -/
theorem stepRunsDecodedInstruction : Obligations.StepRunsDecodedInstruction := by
  unfold Obligations.StepRunsDecodedInstruction
  intro s i hrun hpc hi
  exact step_decoded hrun hpc hi

/-- Settles O9: the dead-end check comes before any byte is fetched. -/
theorem deadEndHaltsTheMachine : Obligations.DeadEndHaltsTheMachine := by
  unfold Obligations.DeadEndHaltsTheMachine
  intro s hrun hpc
  exact step_deadEnd hrun hpc

/-- However an instruction ends, there is a next state. -/
theorem settle_next (s : State) (r : Except FaultCause State) : ∃ t, s.settle r = .next t := by
  cases r with
  | ok t => exact ⟨t, rfl⟩
  | error c => exact ⟨_, rfl⟩

theorem arith3_next (f : Word → Word → Except FaultCause Word) (a b c : Reg) (s : State) :
    ∃ t, s.arith3 f a b c = .next t :=
  settle_next s _

/-- Every instruction on every state gives a next state. -/
theorem exec_next (i : Instr) (s : State) : ∃ t, exec i s = .next t := by
  cases i with
  | mov | jmp | ret => exact settle_next s _
  | add a b c => exact arith3_next addWord a b c s
  | sub a b c => exact arith3_next subWord a b c s
  | mul a b c => exact arith3_next mulWord a b c s
  | div a b c => exact arith3_next divWord a b c s
  | nop | load1 | load2 | load3 | load4 | load5 | load6 | load7 | load8 | not | and | or | xor | cmp
  | hlt | int | cpuid => exact ⟨_, rfl⟩

/-- Every step of every state gives a next state. -/
theorem step_next (s : State) : ∃ t, step s = .next t := by
  cases hs : s.status with
  | halted => exact ⟨_, step_halted hs⟩
  | running =>
    rcases Nat.lt_or_ge s.pc.toNat s.mem.len with hpc | hpc
    · cases hf : s.fetchDecode with
      | ok i => rw [step_decoded hs hpc hf]; exact exec_next i _
      | error e => exact ⟨_, step_error hs hpc hf⟩
    · exact ⟨_, step_deadEnd hs hpc⟩

/-- Settles O10: a fault is a next state too. -/
theorem everyStepHasANextState : Obligations.EveryStepHasANextState := by
  unfold Obligations.EveryStepHasANextState
  exact ⟨exec_next, step_next⟩

end Sys2Proof.Machine
end

section
/-! PROOF. The opcode byte at the program counter selects one instruction or faults (30_encoding.md
R52). -/

namespace Sys2Proof

open Machine

/-- A byte that some instruction has is not refused as an opcode (30_encoding.md R52). -/
theorem decode_ne_invalidOpcode {m : OpcodeMap} {op : Byte} {k : Opcode}
    (hk : m.lookup op = some k) (bs : List Byte) (op' : Byte) :
    decode m (op :: bs) ≠ .error (.invalidOpcode op') := by
  have hops := (decodeOperands_reader k).notOpcode { off := 1, rest := bs } op'
  simp only [decode, hk]
  split
  · nofun
  · next e he => intro h; exact hops (by rw [he, Except.error.inj h])

end Sys2Proof

namespace Sys2Proof.Machine

/-- The bytes after the opcode byte at the program counter, to the end of Memory. -/
def State.operandStream (s : State) : List Byte :=
  s.mem.bytes (s.pc.toNat + 1) (s.mem.len - (s.pc.toNat + 1))

/-- The stream is the opcode byte and the bytes after it. -/
theorem stream_eq_cons {s : State} (h : s.pc.toNat < s.mem.len) :
    s.stream = s.mem.byte s.pc.toNat :: s.operandStream := by
  rw [State.stream, State.operandStream,
    show s.mem.len - s.pc.toNat = (s.mem.len - (s.pc.toNat + 1)) + 1 by omega, bytes_succ]

/-- A stream that does not decode makes the step raise the fault of that error, recorded at the
program counter (30_encoding.md R47; 60_exceptions.md R104). -/
theorem step_of_decode_error {s : State} {e : DecodeError} (hrun : s.status = .running)
    (hpc : s.pc.toNat < s.mem.len) (he : decode s.cfg.opcodeMap s.stream = .error e) :
    step s = .next { s with
      status := .halted
      fr := some ((e.cause s.pc.toNat).record s.pc)
      result := some (.faulted (e.cause s.pc.toNat).code), signals := [], loading := false } :=
  step_error hrun hpc (by rw [fetchDecode_eq_stream, he]; rfl)

/-- What a step decodes, the stream decodes to. -/
theorem decode_of_fetchDecode {s : State} {i : Instr} (h : s.fetchDecode = .ok i) :
    ∃ rest, decode s.cfg.opcodeMap s.stream = .ok (i, rest) := by
  rw [fetchDecode_eq_stream] at h
  cases hd : decode s.cfg.opcodeMap s.stream with
  | error e => rw [hd] at h; cases h
  | ok p => rw [hd] at h; cases h; exact ⟨p.2, rfl⟩

/-- Why a step's bytes do not decode is why the stream does not. -/
theorem decode_stream_error {s : State} {e : DecodeError} (h : s.fetchDecode = .error e) :
    decode s.cfg.opcodeMap s.stream = .error e := by
  rw [fetchDecode_eq_stream] at h
  cases hd : decode s.cfg.opcodeMap s.stream with
  | error e' => rw [hd] at h; cases h; rfl
  | ok p => rw [hd] at h; cases h

/-- Settles O13: the lookup finds nothing, or it finds the instruction that has the byte. -/
theorem opcodeByteSelectsOneInstructionOrFaults :
    Obligations.OpcodeByteSelectsOneInstructionOrFaults := by
  unfold Obligations.OpcodeByteSelectsOneInstructionOrFaults
  intro s hrun hpc
  have hstream := stream_eq_cons hpc
  refine ⟨fun hnone => ?_, fun k hm hk => ⟨fun i hi => ?_, fun op herr => ?_⟩⟩
  · refine step_of_decode_error hrun hpc (e := .invalidOpcode _) ?_
    rw [hstream]
    simp only [decode, lookup_eq_none.2 hnone]
  · obtain ⟨rest, hd⟩ := decode_of_fetchDecode hi
    rw [hstream, ← hk] at hd
    exact Option.some.inj ((lookup_of_decode hd).1.symm.trans (lookup_byteOf hm k))
  · have hd := decode_stream_error herr
    rw [hstream, ← hk] at hd
    exact decode_ne_invalidOpcode (lookup_byteOf hm k) _ _ hd

end Sys2Proof.Machine
end

section
/-! PROOF. A register byte of 16 to 255 faults in every register field, before anything after it is
looked at (30_encoding.md R51, R55). -/

namespace Sys2Proof

open Machine

/-- `p` begins with `n` register operands: the first of their bytes that is 16 to 255 is refused,
whatever follows it. -/
def BeginsWithRegs {α : Type} (n : Nat) (p : Cursor → Except DecodeError (α × Cursor)) : Prop :=
  ∀ (off : Nat) (bs : List Byte) (b : Byte) (rest : List Byte), bs.length < n →
    (∀ r ∈ bs, r.toNat < 16) → 16 ≤ b.toNat →
    p { off := off, rest := bs ++ b :: rest } = .error (.registerIndexOutOfRange b)

theorem BeginsWithRegs.zero {α : Type} {p : Cursor → Except DecodeError (α × Cursor)} :
    BeginsWithRegs 0 p :=
  fun _ _ _ _ hl => absurd hl (Nat.not_lt_zero _)

/-- One register operand more in front. -/
theorem BeginsWithRegs.succ {α : Type} {n : Nat}
    {f : Reg × Cursor → Except DecodeError (α × Cursor)}
    (hf : ∀ r, BeginsWithRegs n (fun c => f (r, c))) :
    BeginsWithRegs (n + 1) (fun c => fetchReg c >>= f) := by
  intro off bs b rest hl hbs hb
  cases bs with
  | nil => simp only [List.nil_append, fetchReg_outOfRange hb, bind, Except.bind]
  | cons r bs =>
    obtain ⟨hr, hbs⟩ := List.forall_mem_cons.1 hbs
    simp only [List.cons_append, fetchReg_cons hr, bind, Except.bind]
    exact hf _ _ _ _ _ (Nat.lt_of_succ_lt_succ hl) hbs hb

/-- The number of register operands that stand right after the opcode byte (30_encoding.md R54). -/
def leadingRegs : Opcode → Nat
  | .add | .sub | .mul | .div => 3
  | .and | .or | .xor | .cmp => 2
  | .not | .load1 | .load2 | .load3 | .load4 | .load5 | .load6 | .load7 | .load8 => 1
  | .nop | .mov | .jmp | .ret | .hlt | .int | .cpuid => 0

theorem decodeOperands_beginsWithRegs (k : Opcode) :
    BeginsWithRegs (leadingRegs k) (decodeOperands k) := by
  cases k with
  | add | sub | mul | div => exact .succ fun _ => .succ fun _ => .succ fun _ => .zero
  | and | or | xor | cmp => exact .succ fun _ => .succ fun _ => .zero
  | not | load1 | load2 | load3 | load4 | load5 | load6 | load7 | load8 =>
    exact .succ fun _ => .zero
  | nop | mov | jmp | ret | hlt | int | cpuid => exact .zero

/-! ## The register fields of a Move -/

/-- Under a legal flags byte a Move fails as its source operand does. -/
theorem decodeMov_src_error {F : Byte} {off : Nat} {rest : List Byte} {e : DecodeError}
    (hF : legalFlags F = true) (hs : decodeSrc F { off := off + 1, rest := rest } = .error e) :
    decodeMov { off := off, rest := F :: rest } = .error e := by
  simp only [decodeMov, fetch_one, bind, Except.bind, BitVec.ofNat_toNat, BitVec.setWidth_eq, hF,
    if_true, hs]

/-- Under a legal flags byte and after a source operand a Move fails as its destination operand
does. -/
theorem decodeMov_dst_error {F : Byte} {off : Nat} {rest : List Byte} {src : MovSrc} {c : Cursor}
    {e : DecodeError} (hF : legalFlags F = true)
    (hs : decodeSrc F { off := off + 1, rest := rest } = .ok (src, c))
    (hd : decodeDst F c = .error e) : decodeMov { off := off, rest := F :: rest } = .error e := by
  simp only [decodeMov, fetch_one, bind, Except.bind, BitVec.ofNat_toNat, BitVec.setWidth_eq, hF,
    if_true, hs, hd]

theorem decodeSrc_badReg {F b : Byte} (hk : flagsSk F = 0#2) (hb : 16 ≤ b.toNat) (off : Nat)
    (rest : List Byte) :
    decodeSrc F { off := off, rest := b :: rest } = .error (.registerIndexOutOfRange b) := by
  simp only [decodeSrc, hk, if_true, fetchReg_outOfRange hb, bind, Except.bind]

theorem decodeDst_badReg {F b : Byte} (hk : flagsDk F = 0#2) (hb : 16 ≤ b.toNat) (off : Nat)
    (rest : List Byte) :
    decodeDst F { off := off, rest := b :: rest } = .error (.registerIndexOutOfRange b) := by
  simp only [decodeDst, hk, if_true, fetchReg_outOfRange hb, bind, Except.bind]

/-- A source register below 16 decodes. -/
theorem decodeSrc_reg {F b : Byte} (hk : flagsSk F = 0#2) (hb : b.toNat < 16) (off : Nat)
    (rest : List Byte) :
    decodeSrc F { off := off, rest := b :: rest } =
      .ok (.reg ⟨b.toNat, hb⟩, { off := off + 1, rest := rest }) := by
  simp only [decodeSrc, hk, if_true, fetchReg_cons hb, bind, Except.bind]

/-- A source in memory or a literal decodes from any bytes of the flags byte's width. -/
theorem decodeSrc_wide {F : Byte} (hk : flagsSk F = 1#2 ∨ flagsSk F = 2#2) {bs : List Byte}
    (hl : bs.length = (flagsWidth F).toNat) (off : Nat) (rest : List Byte) :
    ∃ src, decodeSrc F { off := off, rest := bs ++ rest } =
      .ok (src, { off := off + bs.length, rest := rest }) := by
  rcases hk with hk | hk
  · exact ⟨_, by simp [decodeSrc, hk, ← hl, fetch_append, bind, Except.bind]; rfl⟩
  · exact ⟨_, by simp [decodeSrc, hk, ← hl, fetch_append, bind, Except.bind]; rfl⟩

/-- A flags byte `0x0w` (30_encoding.md R57, R60). -/
theorem flags_regReg {F : Byte} (h : F.toNat / 16 = 0) :
    legalFlags F = true ∧ flagsSk F = 0#2 ∧ flagsDk F = 0#2 := by
  revert F; decide

/-- A flags byte `0x4w` (30_encoding.md R57, R60). -/
theorem flags_regMem {F : Byte} (h : F.toNat / 16 = 4) (hw : 1 ≤ F.toNat % 16)
    (hw' : F.toNat % 16 ≤ 8) : legalFlags F = true ∧ flagsSk F = 0#2 := by
  revert F; decide

/-- A flags byte `0x1w` or `0x2w` (30_encoding.md R57, R60). -/
theorem flags_wideReg {F : Byte} (h : F.toNat / 16 = 1 ∨ F.toNat / 16 = 2)
    (hw : 1 ≤ F.toNat % 16) (hw' : F.toNat % 16 ≤ 8) :
    legalFlags F = true ∧ (flagsSk F = 1#2 ∨ flagsSk F = 2#2) ∧ flagsDk F = 0#2 ∧
      F.toNat % 16 = (flagsWidth F).toNat := by
  revert F; decide

end Sys2Proof

namespace Sys2Proof.Machine

/-- The bytes after the opcode, split at offset `j + 1` from the opcode. -/
theorem operandStream_split {s : State} {j : Nat} (h : s.pc.toNat + (j + 1) < s.mem.len) :
    ∃ rest, s.operandStream =
      s.mem.bytes (s.pc.toNat + 1) j ++ s.mem.byte (s.pc.toNat + (j + 1)) :: rest := by
  obtain ⟨n, hn⟩ := Nat.exists_eq_add_of_lt h
  refine ⟨s.mem.bytes (s.pc.toNat + (j + 1) + 1) n, ?_⟩
  rw [State.operandStream, show s.mem.len - (s.pc.toNat + 1) = j + (n + 1) by omega, bytes_add,
    bytes_succ, Nat.add_assoc, Nat.add_comm 1 j]

/-- Where an opcode's byte stands at the program counter and its operands do not decode, the step
raises the fault of that error. -/
theorem step_of_operands_error {s : State} {k : Opcode} {e : DecodeError}
    (hrun : s.status = .running) (hm : s.cfg.opcodeMap.Injective) (hpc : s.pc.toNat < s.mem.len)
    (hk : s.mem.byte s.pc.toNat = s.cfg.opcodeMap.byteOf k)
    (he : decodeOperands k { off := 1, rest := s.operandStream } = .error e) :
    step s = .next { s with
      status := .halted
      fr := some ((e.cause s.pc.toNat).record s.pc)
      result := some (.faulted (e.cause s.pc.toNat).code), signals := [], loading := false } := by
  refine step_of_decode_error hrun hpc ?_
  rw [stream_eq_cons hpc, hk]
  simp only [decode, lookup_byteOf hm, he]

/-- The first bad byte among an opcode's leading registers is refused. -/
theorem decodeOperands_badLeadingReg {s : State} {k : Opcode} {j : Nat} (hj : j < leadingRegs k)
    (hlen : s.pc.toNat + (j + 1) < s.mem.len)
    (hgood : ∀ q, 1 ≤ q → q < j + 1 → (s.mem.byte (s.pc.toNat + q)).toNat < 16)
    (hbad : 16 ≤ (s.mem.byte (s.pc.toNat + (j + 1))).toNat) :
    decodeOperands k { off := 1, rest := s.operandStream } =
      .error (.registerIndexOutOfRange (s.mem.byte (s.pc.toNat + (j + 1)))) := by
  obtain ⟨rest, hr⟩ := operandStream_split hlen
  rw [hr]
  refine decodeOperands_beginsWithRegs k 1 _ _ _ (by rwa [bytes_length]) (fun r hmem => ?_) hbad
  obtain ⟨q, hq, rfl⟩ := List.getElem_of_mem hmem
  rw [bytes_length] at hq
  rw [bytes_getElem, Nat.add_assoc]
  exact hgood _ (by omega) (by omega)

/-- A bad byte in a Move's source or destination register field is refused. -/
theorem decodeMov_badReg {s : State} {j F : Nat} (hlen : s.pc.toNat + j < s.mem.len)
    (hbad : 16 ≤ (s.mem.byte (s.pc.toNat + j)).toNat)
    (hF : (s.mem.byte (s.pc.toNat + 1)).toNat = F)
    (hfield : (j = 2 ∧ (F / 16 = 0 ∨ F / 16 = 4 ∧ 1 ≤ F % 16 ∧ F % 16 ≤ 8)) ∨
      (j = 3 ∧ F / 16 = 0 ∧ (s.mem.byte (s.pc.toNat + 2)).toNat < 16) ∨
      (j = 2 + F % 16 ∧ (F / 16 = 1 ∨ F / 16 = 2) ∧ 1 ≤ F % 16 ∧ F % 16 ≤ 8)) :
    decodeMov { off := 1, rest := s.operandStream } =
      .error (.registerIndexOutOfRange (s.mem.byte (s.pc.toNat + j))) := by
  subst hF
  rcases hfield with ⟨rfl, hhigh⟩ | ⟨rfl, hhigh, hsrc⟩ | ⟨rfl, hhigh, hw, hw'⟩
  case inl =>
    have hflags : legalFlags (s.mem.byte (s.pc.toNat + 1)) = true ∧
        flagsSk (s.mem.byte (s.pc.toNat + 1)) = 0#2 := by
      rcases hhigh with h | ⟨h, hw, hw'⟩
      · exact ⟨(flags_regReg h).1, (flags_regReg h).2.1⟩
      · exact flags_regMem h hw hw'
    obtain ⟨hlegal, hsk⟩ := hflags
    obtain ⟨rest, hr⟩ := operandStream_split (j := 1) hlen
    rw [hr]
    exact decodeMov_src_error hlegal (decodeSrc_badReg hsk hbad _ _)
  case inr.inl =>
    obtain ⟨hlegal, hsk, hdk⟩ := flags_regReg hhigh
    obtain ⟨rest, hr⟩ := operandStream_split (j := 2) hlen
    rw [hr]
    exact decodeMov_dst_error hlegal (decodeSrc_reg hsk hsrc _ _) (decodeDst_badReg hdk hbad _ _)
  case inr.inr =>
    obtain ⟨hlegal, hsk, hdk, hwidth⟩ := flags_wideReg hhigh hw hw'
    rw [hwidth, Nat.add_comm 2] at hlen hbad ⊢
    obtain ⟨rest, hr⟩ := operandStream_split hlen
    obtain ⟨src, hs⟩ := decodeSrc_wide hsk (bytes_length s.mem (s.pc.toNat + 1 + 1) _) (1 + 1) _
    rw [hr, bytes_succ]
    exact decodeMov_dst_error hlegal hs (decodeDst_badReg hdk hbad _ _)

/-- Settles O15: a leading register of any instruction, or a register field of a Move. -/
theorem anyRegisterByteOutOfRangeFaults : Obligations.AnyRegisterByteOutOfRangeFaults := by
  unfold Obligations.AnyRegisterByteOutOfRangeFaults
  intro s j hrun hm hlen hbad hfield
  have hpc : s.pc.toNat < s.mem.len := by omega
  rcases hfield with ⟨k, n, hkn, hk, hj, hjn, hgood⟩ | ⟨F, hk, hF, hfield⟩
  · have hn : n = leadingRegs k := by fin_cases hkn <;> rfl
    obtain ⟨j, rfl⟩ := Nat.exists_eq_add_of_le' hj
    exact step_of_operands_error hrun hm hpc hk
      (decodeOperands_badLeadingReg (hn ▸ hjn) hlen hgood hbad)
  · exact step_of_operands_error (k := .mov) hrun hm hpc hk (decodeMov_badReg hlen hbad hF hfield)

/-- Settles O14: the first register byte is the first of the leading ones. -/
theorem firstRegisterByteOutOfRangeFaults : Obligations.FirstRegisterByteOutOfRangeFaults := by
  unfold Obligations.FirstRegisterByteOutOfRangeFaults
  intro s k hrun hm hk hlen hop hbad
  have hlead : 0 < leadingRegs k := by
    cases k with
    | nop | mov | jmp | ret | hlt | int | cpuid => exact absurd (by decide) hk
    | _ => exact Nat.succ_pos _
  exact step_of_operands_error hrun hm (by omega) hop
    (decodeOperands_badLeadingReg hlead hlen (by omega) hbad)

end Sys2Proof.Machine
end

section
/-! PROOF. An instruction cut short by the end of Memory is refused for the one field that does not
fit (30_encoding.md R50, R54, R59). -/

namespace Sys2Proof

open Machine

/-- `q` reads one field of `n` bytes: `a` from the bytes `b`, nothing from fewer than `n` bytes. -/
structure ReadsField {α : Type} (n : Nat) (q : Cursor → Except DecodeError (α × Cursor))
    (b : List Byte) (a : α) : Prop where
  length : b.length = n
  whole : ∀ off rest,
    q { off := off, rest := b ++ rest } = .ok (a, { off := off + n, rest := rest })
  cut : ∀ off bs, bs.length < n → q { off := off, rest := bs } = .error (.truncated off n)

theorem fetch_cut {n : Nat} {bs : List Byte} (h : bs.length < n) (off : Nat) :
    fetch n { off := off, rest := bs } = .error (.truncated off n) := by
  simp only [fetch, if_neg (Nat.not_le.2 h)]

theorem readsField_leBytes {n v : Nat} (h : v < 2 ^ (8 * n)) :
    ReadsField n (fetch n) (leBytes n v) v where
  length := leBytes_length n v
  whole off rest := fetch_leBytes h rest off
  cut off _ hl := fetch_cut hl off

theorem readsField_byte (b : Byte) : ReadsField 1 (fetch 1) [b] b.toNat where
  length := rfl
  whole off rest := fetch_one b rest off
  cut off _ hl := fetch_cut hl off

theorem fetchReg_cut {bs : List Byte} (h : bs.length < 1) (off : Nat) :
    fetchReg { off := off, rest := bs } = .error (.truncated off 1) := by
  rw [List.length_eq_zero_iff.1 (Nat.lt_one_iff.1 h), fetchReg_nil]

theorem readsField_reg (r : Reg) : ReadsField 1 fetchReg [encodeReg r] r where
  length := rfl
  whole off rest := fetchReg_encodeReg r rest off
  cut off _ hl := fetchReg_cut hl off

theorem readsField_src {F : Byte} {src : MovSrc} (hk : flagsSk F = src.kind)
    (hw : src.wellFormed (flagsWidth F) = true) :
    ReadsField (src.length (flagsWidth F)) (decodeSrc F) (src.encode (flagsWidth F)) src where
  length := by cases src <;> simp [MovSrc.encode, MovSrc.length]
  whole off rest := decodeSrc_encode hk hw off rest
  cut off bs hl := by
    cases src with
    | reg r =>
      have hcut := fetchReg_cut hl off
      simp [decodeSrc, hk, MovSrc.kind, MovSrc.length, hcut, bind, Except.bind]
    | mem v | const v =>
      have hcut := fetch_cut (n := (flagsWidth F).toNat) hl off
      simp [decodeSrc, hk, MovSrc.kind, MovSrc.length, hcut, bind, Except.bind]

theorem readsField_dst {F : Byte} {dst : MovDst} (hk : flagsDk F = dst.kind)
    (hw : dst.wellFormed (flagsWidth F) = true) :
    ReadsField (dst.length (flagsWidth F)) (decodeDst F) (dst.encode (flagsWidth F)) dst where
  length := by cases dst <;> simp [MovDst.encode, MovDst.length]
  whole off rest := decodeDst_encode hk hw off rest
  cut off bs hl := by
    cases dst with
    | reg r =>
      have hcut := fetchReg_cut hl off
      simp [decodeDst, hk, MovDst.kind, MovDst.length, hcut, bind, Except.bind]
    | mem v =>
      have hcut := fetch_cut (n := (flagsWidth F).toNat) hl off
      simp [decodeDst, hk, MovDst.kind, MovDst.length, hcut, bind, Except.bind]

/-! ## Fields one after another -/

/-- Fields of these widths, one after another from `off` up, as pairs of offset and width. -/
def fieldsFrom : Nat → List Nat → List (Nat × Nat)
  | _, [] => []
  | off, n :: ns => (off, n) :: fieldsFrom (off + n) ns

theorem le_of_mem_fieldsFrom {o w : Nat} {ns : List Nat} :
    ∀ {off : Nat}, (o, w) ∈ fieldsFrom off ns → off ≤ o := by
  induction ns with
  | nil => exact nofun
  | cons n ns ih =>
    intro off h
    rcases List.mem_cons.1 h with h | h
    · cases h; exact Nat.le_refl _
    · exact (Nat.le_add_right off n).trans (ih h)

/-- `p` reads the bytes `bs` as fields of the widths `ns`: where the first `k` of the bytes are all
there is, it refuses the field that they do not fill. -/
def RefusesCut {α : Type} (p : Cursor → Except DecodeError (α × Cursor)) (bs : List Byte)
    (ns : List Nat) : Prop :=
  ∀ (off k o w : Nat), (o, w) ∈ fieldsFrom off ns → o ≤ off + k → off + k < o + w →
    p { off := off, rest := bs.take k } = .error (.truncated o w)

theorem RefusesCut.nil {α : Type} {p : Cursor → Except DecodeError (α × Cursor)} {bs : List Byte} :
    RefusesCut p bs [] :=
  fun _ _ _ _ => nofun

/-- One field more in front: the cut is in it, or it is whole and the cut is behind it. -/
theorem RefusesCut.cons {α β : Type} {n : Nat} {q : Cursor → Except DecodeError (α × Cursor)}
    {b bs : List Byte} {a : α} {f : α × Cursor → Except DecodeError (β × Cursor)} {ns : List Nat}
    (hq : ReadsField n q b a) (hf : RefusesCut (fun c => f (a, c)) bs ns) :
    RefusesCut (fun c => q c >>= f) (b ++ bs) (n :: ns) := by
  intro off k o w hmem hle hlt
  rcases List.mem_cons.1 hmem with h | h
  · cases h
    have hshort : ((b ++ bs).take k).length < n := by
      rw [List.length_take]
      omega
    simp only [hq.cut off _ hshort, bind, Except.bind]
  · have hn := le_of_mem_fieldsFrom h
    have htake : (b ++ bs).take k = b ++ bs.take (k - n) := by
      rw [List.take_append, hq.length, List.take_of_length_le (by rw [hq.length]; omega)]
    simp only [htake, hq.whole, bind, Except.bind]
    exact hf (off + n) (k - n) o w h (by omega) (by omega)

/-- The last field. -/
theorem RefusesCut.last {α β : Type} {n : Nat} {q : Cursor → Except DecodeError (α × Cursor)}
    {b : List Byte} {a : α} {f : α × Cursor → Except DecodeError (β × Cursor)}
    (hq : ReadsField n q b a) : RefusesCut (fun c => q c >>= f) b [n] := by
  simpa only [List.append_nil] using RefusesCut.cons (bs := []) (f := f) hq .nil

/-! ## The operand fields of each instruction -/

/-- The widths of an instruction's operand fields, in encoding order (30_encoding.md R54, R59). -/
def Instr.fieldWidths : Instr → List Nat
  | .nop | .ret | .hlt | .cpuid => []
  | .load1 _ _ => [1, 1]
  | .load2 _ _ => [1, 2]
  | .load3 _ _ => [1, 3]
  | .load4 _ _ => [1, 4]
  | .load5 _ _ => [1, 5]
  | .load6 _ _ => [1, 6]
  | .load7 _ _ => [1, 7]
  | .load8 _ _ => [1, 8]
  | .mov w src dst => [1, src.length w, dst.length w]
  | .add _ _ _ | .sub _ _ _ | .mul _ _ _ | .div _ _ _ => [1, 1, 1]
  | .and _ _ | .or _ _ | .xor _ _ | .cmp _ _ => [1, 1]
  | .not _ | .int _ => [1]
  | .jmp _ => [8]

theorem decodeLoad_refusesCut {n : Nat} (mk : Reg → BitVec (8 * n) → Instr) (d : Reg)
    (v : BitVec (8 * n)) :
    RefusesCut (decodeLoad n fun d v => mk d (BitVec.ofNat (8 * n) v))
      (encodeReg d :: leBytes n v.toNat) [1, n] :=
  .cons (readsField_reg d) (.last (readsField_leBytes v.isLt))

theorem decodeReg3_refusesCut (mk : Reg → Reg → Reg → Instr) (a b c : Reg) :
    RefusesCut (decodeReg3 mk) [encodeReg a, encodeReg b, encodeReg c] [1, 1, 1] :=
  .cons (readsField_reg a) (.cons (readsField_reg b) (.last (readsField_reg c)))

theorem decodeReg2_refusesCut (mk : Reg → Reg → Instr) (a b : Reg) :
    RefusesCut (decodeReg2 mk) [encodeReg a, encodeReg b] [1, 1] :=
  .cons (readsField_reg a) (.last (readsField_reg b))

/-- A Move refuses its flags byte, its source or its destination, whichever is cut. -/
theorem decodeMov_refusesCut {w : BitVec 4} {src : MovSrc} {dst : MovDst}
    (h : movWellFormed w src dst = true) :
    RefusesCut decodeMov (Instr.mov w src dst).operandBytes
      [1, src.length w, dst.length w] := by
  obtain ⟨hs, hd⟩ := operands_wellFormed h
  have hlegal := legalFlags_of_wellFormed h
  have hsk : flagsSk (moveFlags w src dst) = src.kind := flagsSk_append ..
  have hdk : flagsDk (moveFlags w src dst) = dst.kind := flagsDk_append ..
  have hwidth : flagsWidth (moveFlags w src dst) = w := flagsWidth_append ..
  simp only [Instr.operandBytes]
  generalize moveFlags w src dst = F at hlegal hsk hdk hwidth
  subst hwidth
  refine .cons (readsField_byte F) ?_
  simp only [BitVec.ofNat_toNat, BitVec.setWidth_eq, hlegal, if_true]
  refine .cons (readsField_src hsk hs) ?_
  dsimp only
  exact .last (readsField_dst hdk hd)

/-- The operand bytes of every well-formed instruction, cut short, are refused for the field that
does not fit. -/
theorem decodeOperands_refusesCut {i : Instr} (h : i.wellFormed = true) :
    RefusesCut (decodeOperands i.opcode) i.operandBytes i.fieldWidths := by
  cases i with
  | nop | ret | hlt | cpuid => exact .nil
  | load1 d v => exact decodeLoad_refusesCut (n := 1) .load1 d v
  | load2 d v => exact decodeLoad_refusesCut (n := 2) .load2 d v
  | load3 d v => exact decodeLoad_refusesCut (n := 3) .load3 d v
  | load4 d v => exact decodeLoad_refusesCut (n := 4) .load4 d v
  | load5 d v => exact decodeLoad_refusesCut (n := 5) .load5 d v
  | load6 d v => exact decodeLoad_refusesCut (n := 6) .load6 d v
  | load7 d v => exact decodeLoad_refusesCut (n := 7) .load7 d v
  | load8 d v => exact decodeLoad_refusesCut (n := 8) .load8 d v
  | mov w src dst => exact decodeMov_refusesCut h
  | add a b c | sub a b c | mul a b c | div a b c => exact decodeReg3_refusesCut _ a b c
  | and a b | or a b | xor a b | cmp a b => exact decodeReg2_refusesCut _ a b
  | not a => exact .last (readsField_reg a)
  | jmp t => exact .last (readsField_leBytes (n := 8) t.isLt)
  | int n => exact .last (readsField_byte n)

end Sys2Proof

namespace Sys2Proof.Machine

/-- Settles O16: the operand bytes up to the end of Memory are the encoding's, cut at `k`. -/
theorem truncatedInstructionFaults : Obligations.TruncatedInstructionFaults := by
  unfold Obligations.TruncatedInstructionFaults
  intro s i k off n hrun hm hw hk hlen hb hfield hle hlt
  have hmem : (off, n) ∈ fieldsFrom 1 i.fieldWidths := by cases i <;> exact hfield
  obtain ⟨k, rfl⟩ := Nat.exists_eq_add_of_le' hk
  rw [bytes_succ, encode, List.take_succ_cons] at hb
  obtain ⟨hop, hops⟩ := List.cons.inj hb
  refine step_of_operands_error hrun hm (by omega) hop (e := .truncated off n) ?_
  rw [State.operandStream, show s.mem.len - (s.pc.toNat + 1) = k by omega, hops]
  exact decodeOperands_refusesCut hw 1 k off n hmem (by omega) (by omega)

end Sys2Proof.Machine
end

section
/-! PROOF. A Move under a legal flags byte: what it writes, and where it faults (40_data_movement.md
R74 to R80). -/

namespace Sys2Proof.Machine

/-! ## The Move as a whole -/

/-- With a width of 1 to 8 every pair of operands is legal (30_encoding.md R60). -/
theorem legalFlags_of_width {w : BitVec 4} (hw : 1 ≤ w.toNat) (hw' : w.toNat ≤ 8) (src : MovSrc)
    (dst : MovDst) : legalFlags (moveFlags w src dst) = true := by
  rw [legalFlags_moveFlags, widthOk_iff.2 ⟨hw, hw'⟩, Bool.or_true]

/-- Register to register is legal with any width field (30_encoding.md R60). -/
theorem legalFlags_regReg (w : BitVec 4) (r d : Reg) :
    legalFlags (moveFlags w (.reg r) (.reg d)) = true := by
  rw [legalFlags_moveFlags]
  rfl

section Legal

variable {w : BitVec 4} {src : MovSrc} {dst : MovDst} {s : State}

/-- A Move whose source is read and whose destination is written goes on past itself. -/
theorem exec_mov_of_writeDst {v : Word} {t : State}
    (hF : legalFlags (moveFlags w src dst) = true) (hv : readSrc w.toNat src s = .ok v)
    (ht : writeDst w.toNat dst v s = .ok t) :
    exec (.mov w src dst) s = .next (t.advance (moveLength w src dst)) := by
  show execMov w src dst s = _
  simp only [execMov, hF, if_true, hv, ht, settle_ok]

/-- A Move raises the fault of its source access, whatever its destination. -/
theorem exec_mov_of_readSrc_error {c : FaultCause}
    (hF : legalFlags (moveFlags w src dst) = true) (hc : readSrc w.toNat src s = .error c) :
    exec (.mov w src dst) s = .next (s.raise s.pc c) := by
  show execMov w src dst s = _
  simp only [execMov, hF, if_true, hc, settle_error]

/-- A Move whose source is read raises the fault of its destination access. -/
theorem exec_mov_of_writeDst_error {v : Word} {c : FaultCause}
    (hF : legalFlags (moveFlags w src dst) = true) (hv : readSrc w.toNat src s = .ok v)
    (hc : writeDst w.toNat dst v s = .error c) :
    exec (.mov w src dst) s = .next (s.raise s.pc c) := by
  show execMov w src dst s = _
  simp only [execMov, hF, if_true, hv, hc, settle_error]

/-- A Move to a register writes the source's value to it and moves the program counter. -/
theorem exec_mov_toReg {d : Reg} {v : Word} (hF : legalFlags (moveFlags w src (.reg d)) = true)
    (hv : readSrc w.toNat src s = .ok v) :
    exec (.mov w src (.reg d)) s = .next { s with
      x := s.x.set d v
      pc := s.pc + BitVec.ofNat 64 (moveLength w src (.reg d)) } :=
  exec_mov_of_writeDst hF hv rfl

/-- A Move to memory in bounds stores the low `w` bytes of the source's value, least significant
first, and changes nothing else but the program counter. -/
theorem exec_mov_toMem {ad v : Word} (hF : legalFlags (moveFlags w src (.mem ad)) = true)
    (hv : readSrc w.toNat src s = .ok v) (hb : ad.toNat + w.toNat ≤ s.mem.len) :
    ∃ m : Memory, exec (.mov w src (.mem ad)) s = .next { s with
        mem := m, pc := s.pc + BitVec.ofNat 64 (moveLength w src (.mem ad)) } ∧
      m.len = s.mem.len ∧ ∀ a, m.byte a =
        if ad.toNat ≤ a ∧ a < ad.toNat + w.toNat
        then v.extractLsb' (8 * (a - ad.toNat)) 8 else s.mem.byte a := by
  have hstore : writeDst w.toNat (.mem ad) v s =
      .ok { s with mem := s.mem.writeBytes ad.toNat (leBytes w.toNat v.toNat) } := by
    simp only [writeDst, write_of_inBounds hb]
  have hexec := exec_mov_of_writeDst hF hv hstore
  exact ⟨_, hexec, writeBytes_len .., byte_writeBytes_leBytes _ _ _ v⟩

end Legal

/-! ## Register destinations -/

/-- Settles O21: a register source is read whole. -/
theorem movRegisterToRegister : Obligations.MovRegisterToRegister := by
  unfold Obligations.MovRegisterToRegister
  intro w a d s
  exact exec_mov_toReg (legalFlags_regReg w a d) rfl

/-- Settles O25: a literal source is its own value. -/
theorem movConstantToRegister : Obligations.MovConstantToRegister := by
  unfold Obligations.MovConstantToRegister
  intro w k d s hw hw'
  rw [exec_mov_toReg (legalFlags_of_width hw hw' ..) rfl, moveLength, MovSrc.length, MovDst.length,
    show 2 + w.toNat + 1 = 3 + w.toNat by omega]

/-- Settles O23: the value read is the weighted sum of the bytes. -/
theorem movMemoryToRegister : Obligations.MovMemoryToRegister := by
  unfold Obligations.MovMemoryToRegister
  intro w a d s hw hw' hb
  have hread : readSrc w.toNat (.mem a) s = .ok (BitVec.ofNat 64
      (∑ j ∈ Finset.range w.toNat, (s.mem.byte (a.toNat + j)).toNat * 2 ^ (8 * j))) := by
    rw [readSrc, read_of_inBounds hb, leValue_bytes]
  rw [exec_mov_toReg (legalFlags_of_width hw hw' ..) hread, moveLength, MovSrc.length,
    MovDst.length, show 2 + w.toNat + 1 = 3 + w.toNat by omega]

/-! ## Memory destinations -/

/-- Settles O22: the source's value is the whole register. -/
theorem movRegisterToMemory : Obligations.MovRegisterToMemory := by
  unfold Obligations.MovRegisterToMemory
  intro w r ad s hw hw' hb
  exact exec_mov_toMem (legalFlags_of_width hw hw' ..) (v := s.x.get r) rfl hb

/-- Settles O26: the source's value is the literal. -/
theorem movConstantToMemory : Obligations.MovConstantToMemory := by
  unfold Obligations.MovConstantToMemory
  intro w k ad s hw hw' hb
  have hlen : moveLength w (.const k) (.mem ad) = 2 + 2 * w.toNat := by
    simp only [moveLength, MovSrc.length, MovDst.length]
    omega
  rw [← hlen]
  exact exec_mov_toMem (legalFlags_of_width hw hw' ..) rfl hb

/-- Byte `i` of the word that a read of at most 8 bytes gives is the byte read there. -/
theorem extractLsb'_leValue_bytes (m : Memory) (a : Nat) {w : BitVec 4} (hw : w.toNat ≤ 8) {i : Nat}
    (hi : i < w.toNat) :
    (BitVec.ofNat 64 (leValue (m.bytes a w.toNat))).extractLsb' (8 * i) 8 = m.byte (a + i) := by
  obtain ⟨hbytes, -⟩ := fetched_fits w (m.bytes a w.toNat) (bytes_length ..) hw
  rw [← leBytes_getElem_eq_extractLsb' w.toNat _ i (by rwa [leBytes_length]),
    List.getElem_of_eq hbytes, bytes_getElem]

/-- Settles O24: the whole source value is read before the first byte is written, and its bytes are
those the source held. -/
theorem movMemoryToMemory : Obligations.MovMemoryToMemory := by
  unfold Obligations.MovMemoryToMemory
  intro w a ad s hw hw' hb hb'
  obtain ⟨m, hexec, hlen, hbyte⟩ := exec_mov_toMem (src := .mem a) (legalFlags_of_width hw hw' ..)
    (read_of_inBounds hb) hb'
  refine ⟨m, ?_, hlen, fun b => ?_⟩
  · rw [hexec, moveLength, MovSrc.length, MovDst.length,
      show 2 + w.toNat + w.toNat = 2 + 2 * w.toNat by omega]
  · rw [hbyte]
    split
    · next hin => rw [extractLsb'_leValue_bytes _ _ hw' (by omega)]
    · rfl

/-! ## Accesses out of bounds -/

/-- Settles O27: the source is read first; where that answers, the destination's store faults. -/
theorem movOutOfBoundsFaults : Obligations.MovOutOfBoundsFaults := by
  unfold Obligations.MovOutOfBoundsFaults
  refine ⟨fun w a dst s hw hw' hout => ?_, fun w src ad s hw hw' hin hout => ?_⟩
  · exact exec_mov_of_readSrc_error (src := .mem a) (legalFlags_of_width hw hw' ..)
      (read_of_not_inBounds (Nat.not_le.2 hout))
  · rcases readSrc_cases w.toNat src s with ⟨v, hv⟩ | ⟨a, ha, hnot, -⟩
    · have hstore : writeDst w.toNat (.mem ad) v s =
          .error (.memoryOutOfBounds ad.toNat w.toNat) := by
        simp only [writeDst, write_of_not_inBounds (Nat.not_le.2 hout)]
      exact exec_mov_of_writeDst_error (legalFlags_of_width hw hw' ..) hv hstore
    · exact absurd (hin a ha) hnot

end Sys2Proof.Machine
end

section
/-! PROOF. A Move flags byte that is none of the six legal forms is refused before its operands
(40_data_movement.md R81). -/

namespace Sys2Proof

open Machine

/-- The legal flags bytes as numbers (30_encoding.md R59, R60). -/
theorem legalFlags_iff_toNat {F : Byte} : legalFlags F = true ↔
    F.toNat < 16 ∨ (F.toNat / 16 ∈ [1, 2, 4, 5, 6] ∧ 1 ≤ F.toNat % 16 ∧ F.toNat % 16 ≤ 8) := by
  revert F; decide

/-- An illegal flags byte is refused, whatever follows it (30_encoding.md R60). -/
theorem decodeMov_illegalFlags {F : Byte} (hF : legalFlags F ≠ true) (off : Nat)
    (rest : List Byte) :
    decodeMov { off := off, rest := F :: rest } = .error (.illegalMoveOperand F) := by
  simp only [decodeMov, fetch_one, bind, Except.bind, BitVec.ofNat_toNat, BitVec.setWidth_eq,
    if_neg hF]

end Sys2Proof

namespace Sys2Proof.Machine

/-- Settles O17: the operands begin with the flags byte, and it is refused. -/
theorem illegalMoveFlagsFault : Obligations.IllegalMoveFlagsFault := by
  unfold Obligations.IllegalMoveFlagsFault
  intro s F hrun hm hlen hop hF hillegal
  subst hF
  obtain ⟨rest, hr⟩ := operandStream_split (j := 0) hlen
  refine step_of_operands_error (k := .mov) hrun hm (by omega) hop
    (e := .illegalMoveOperand (s.mem.byte (s.pc.toNat + 1))) ?_
  rw [hr]
  exact decodeMov_illegalFlags (mt legalFlags_iff_toNat.1 hillegal) 1 rest

end Sys2Proof.Machine
end

section
/-! PROOF. NOP and LOAD1 to LOAD8, as instructions and as bytes in Memory (40_data_movement.md R65 to
R73). -/

namespace Sys2Proof.Machine

/-- Settles O18: NOP is an advance by one byte. -/
theorem nopOnlyAdvances : Obligations.NopOnlyAdvances := by
  unfold Obligations.NopOnlyAdvances
  exact fun _ => rfl

/-- `mk` is the load of `n` bytes that opcode `k` selects: its encoding is of format FL, and it writes
the value, zero-extended (30_encoding.md R54; 40_data_movement.md R66 to R73). -/
structure IsLoad (k : Opcode) (n : Nat) (mk : Reg → BitVec (8 * n) → Instr) : Prop where
  opcode : ∀ d v, (mk d v).opcode = k
  operandBytes : ∀ d v, (mk d v).operandBytes = encodeReg d :: leBytes n v.toNat
  length : ∀ d v, (mk d v).length = n + 2
  wellFormed : ∀ d v, (mk d v).wellFormed = true
  exec : ∀ d v s, exec (mk d v) s = .next (s.loadValue n d (v.setWidth 64))

theorem isLoad_load1 : IsLoad .load1 1 .load1 :=
  ⟨fun _ _ => rfl, fun _ _ => rfl, fun _ _ => rfl, fun _ _ => rfl, fun _ _ _ => rfl⟩

theorem isLoad_load2 : IsLoad .load2 2 .load2 :=
  ⟨fun _ _ => rfl, fun _ _ => rfl, fun _ _ => rfl, fun _ _ => rfl, fun _ _ _ => rfl⟩

theorem isLoad_load3 : IsLoad .load3 3 .load3 :=
  ⟨fun _ _ => rfl, fun _ _ => rfl, fun _ _ => rfl, fun _ _ => rfl, fun _ _ _ => rfl⟩

theorem isLoad_load4 : IsLoad .load4 4 .load4 :=
  ⟨fun _ _ => rfl, fun _ _ => rfl, fun _ _ => rfl, fun _ _ => rfl, fun _ _ _ => rfl⟩

theorem isLoad_load5 : IsLoad .load5 5 .load5 :=
  ⟨fun _ _ => rfl, fun _ _ => rfl, fun _ _ => rfl, fun _ _ => rfl, fun _ _ _ => rfl⟩

theorem isLoad_load6 : IsLoad .load6 6 .load6 :=
  ⟨fun _ _ => rfl, fun _ _ => rfl, fun _ _ => rfl, fun _ _ => rfl, fun _ _ _ => rfl⟩

theorem isLoad_load7 : IsLoad .load7 7 .load7 :=
  ⟨fun _ _ => rfl, fun _ _ => rfl, fun _ _ => rfl, fun _ _ => rfl, fun _ _ _ => rfl⟩

theorem isLoad_load8 : IsLoad .load8 8 .load8 :=
  ⟨fun _ _ => rfl, fun _ _ => rfl, fun _ _ => rfl, fun _ _ => rfl, fun _ _ _ => rfl⟩

/-- A load writes its value, zero-extended to 64 bits, and moves the program counter past itself. -/
theorem IsLoad.exec_zeroExtends {k : Opcode} {n : Nat} {mk : Reg → BitVec (8 * n) → Instr}
    (h : IsLoad k n mk) (d : Reg) (v : BitVec (8 * n)) (s : State) :
    Machine.exec (mk d v) s = .next { s with
      x := s.x.set d (BitVec.ofNat 64 v.toNat), pc := s.pc + BitVec.ofNat 64 (n + 2) } := by
  rw [h.exec, BitVec.ofNat_toNat]
  rfl

/-- Settles O19: each of the eight is a load. -/
theorem loadsZeroExtend : Obligations.LoadsZeroExtend := by
  unfold Obligations.LoadsZeroExtend
  exact ⟨isLoad_load1.exec_zeroExtends, isLoad_load2.exec_zeroExtends,
    isLoad_load3.exec_zeroExtends, isLoad_load4.exec_zeroExtends, isLoad_load5.exec_zeroExtends,
    isLoad_load6.exec_zeroExtends, isLoad_load7.exec_zeroExtends, isLoad_load8.exec_zeroExtends⟩

/-- A step over a load in Memory writes the number that its value bytes are. -/
theorem IsLoad.step {k : Opcode} {n : Nat} {mk : Reg → BitVec (8 * n) → Instr}
    (h : IsLoad k n mk) {s : State} {d : Reg} (hrun : s.status = .running)
    (hm : s.cfg.opcodeMap.Injective) (hlen : s.pc.toNat + n + 2 ≤ s.mem.len)
    (hop : s.mem.byte s.pc.toNat = s.cfg.opcodeMap.byteOf k)
    (hd : (s.mem.byte (s.pc.toNat + 1)).toNat = d.val) :
    Machine.step s = .next { s.beginStep with
      x := s.x.set d (BitVec.ofNat 64 (leValue (s.mem.bytes (s.pc.toNat + 2) n)))
      pc := s.pc + BitVec.ofNat 64 (n + 2) } := by
  generalize hbs : s.mem.bytes (s.pc.toNat + 2) n = bs
  have hn : bs.length = n := by rw [← hbs, bytes_length]
  have hval : (BitVec.ofNat (8 * n) (leValue bs)).toNat = leValue bs := by
    rw [BitVec.toNat_ofNat, Nat.mod_eq_of_lt (hn ▸ leValue_lt bs)]
  have hreg : s.mem.byte (s.pc.toNat + 1) = encodeReg d :=
    BitVec.eq_of_toNat_eq (by rw [hd, encodeReg_toNat])
  have hstored : s.mem.bytes s.pc.toNat (mk d (BitVec.ofNat (8 * n) (leValue bs))).length =
      encode s.cfg.opcodeMap (mk d (BitVec.ofNat (8 * n) (leValue bs))) := by
    rw [h.length, bytes_succ, bytes_succ, encode, h.opcode, h.operandBytes, hval, hop, hreg, hbs]
    conv_rhs => rw [← hn, leBytes_leValue]
  rw [step_stored hrun hm (h.wellFormed ..) (by rw [h.length]; omega) hstored, h.exec_zeroExtends,
    hval]
  rfl

/-- Settles O20: the step over the load whose encoding the bytes are, and the value of the bytes is
their weighted sum. -/
theorem loadFromMemoryBytes : Obligations.LoadFromMemoryBytes := by
  unfold Obligations.LoadFromMemoryBytes
  intro s k n d hk hrun hm hlen hop hd
  have hload : ∃ mk, IsLoad k n mk := by
    fin_cases hk
    · exact ⟨_, isLoad_load1⟩
    · exact ⟨_, isLoad_load2⟩
    · exact ⟨_, isLoad_load3⟩
    · exact ⟨_, isLoad_load4⟩
    · exact ⟨_, isLoad_load5⟩
    · exact ⟨_, isLoad_load6⟩
    · exact ⟨_, isLoad_load7⟩
    · exact ⟨_, isLoad_load8⟩
  obtain ⟨mk, hmk⟩ := hload
  rw [hmk.step hrun hm hlen hop hd, leValue_bytes]
  rfl

end Sys2Proof.Machine
end

section
/-! PROOF. ADD to CMP: the value each of them writes, in both readings of the operands, and the two
faults of DIV (41_arithmetic_logic.md). -/

namespace Sys2Proof.Machine

/-! ## The narrowed results as word operations -/

/-- The narrowed exact sum is the word sum (00_scope.md R9). -/
theorem addWord_eq (a b : Word) : addWord a b = .ok (a + b) := by
  simp only [addWord, wrap64, sint, BitVec.ofInt_add, BitVec.ofInt_toInt]

/-- The narrowed exact difference is the word difference (00_scope.md R9). -/
theorem subWord_eq (a b : Word) : subWord a b = .ok (a - b) := by
  have hwrap : wrap64 (sint a - sint b) = a - b := BitVec.eq_of_toInt_eq (by
    rw [wrap64, BitVec.toInt_ofInt, BitVec.toInt_sub, sint, sint])
  rw [subWord, hwrap]

/-- The narrowed exact product is the word product (00_scope.md R9). -/
theorem mulWord_eq (a b : Word) : mulWord a b = .ok (a * b) := by
  simp only [mulWord, wrap64, sint, BitVec.ofInt_mul, BitVec.ofInt_toInt]

/-- The unsigned reading of a word difference is the exact one modulo `2 ^ 64`. -/
theorem toNat_sub_emod (a b : Word) :
    ((a - b).toNat : Int) = ((a.toNat : Int) - b.toNat) % 2 ^ 64 := by
  rw [BitVec.toNat_sub]
  omega

/-- The narrowed quotient toward zero is the signed word quotient (00_scope.md R9, R10). -/
theorem wrap64_truncQ (a b : Word) : wrap64 (truncQ (sint a) (sint b)) = a.sdiv b :=
  BitVec.eq_of_toInt_eq (by rw [wrap64, BitVec.toInt_ofInt, BitVec.toInt_sdiv, truncQ, sint, sint])

/-- Unless it faults, DIV's value is the signed word quotient (R86). -/
theorem divWord_eq_sdiv {a b : Word} (hb : sint b ≠ 0)
    (hover : ¬ (sint a = -2 ^ 63 ∧ sint b = -1)) : divWord a b = .ok (a.sdiv b) := by
  obtain ⟨hzero, -⟩ | ⟨-, ha, hb', -⟩ | ⟨-, -, h⟩ := divWord_cases a b
  · exact absurd hzero hb
  · exact absurd ⟨ha, hb'⟩ hover
  · rw [h, wrap64_truncQ]

/-- A zero divisor is refused whatever the dividend (R86). -/
theorem divWord_zero (a : Word) {b : Word} (hb : sint b = 0) :
    divWord a b = .error .divideByZero := by
  obtain ⟨-, h⟩ | ⟨hne, -⟩ | ⟨hne, -⟩ := divWord_cases a b
  · exact h
  · exact absurd hb hne
  · exact absurd hb hne

/-- The one quotient that does not fit is refused (R86). -/
theorem divWord_overflow {a b : Word} (ha : sint a = -2 ^ 63) (hb : sint b = -1) :
    divWord a b = .error .divideOverflow := by
  obtain ⟨hzero, -⟩ | ⟨-, -, -, h⟩ | ⟨-, hover, -⟩ := divWord_cases a b
  · omega
  · exact h
  · exact absurd ⟨ha, hb⟩ hover

/-- The signed word quotient is the exact one but for `-2 ^ 63 / -1`. -/
theorem toInt_sdiv_of_no_overflow {a b : Word} (hover : ¬ (a.toInt = -2 ^ 63 ∧ b.toInt = -1)) :
    (a.sdiv b).toInt = a.toInt.tdiv b.toInt := by
  refine BitVec.toInt_sdiv_of_ne_or_ne a b (not_and_or.1 ?_)
  rintro ⟨rfl, rfl⟩
  exact hover (by decide)

/-- NOT's value is the bitwise complement (R87). -/
theorem notWord_eq (a : Word) : notWord a = ~~~a := BitVec.xor_allOnes

/-- The signed reading of the complement. -/
theorem toInt_not_word (a : Word) : (~~~a).toInt = -a.toInt - 1 := by
  rw [BitVec.toInt_eq_toNat_cond, BitVec.toInt_eq_toNat_cond, BitVec.toNat_not]
  have := a.isLt
  omega

/-! ## The remainder of a division toward zero -/

/-- The remainder is smaller than the divisor in absolute value. -/
theorem abs_tmod_lt (a : Int) {b : Int} (hb : b ≠ 0) : |a.tmod b| < |b| := by
  rw [Int.abs_eq_natAbs, Int.abs_eq_natAbs, Int.natAbs_tmod, Int.ofNat_lt]
  exact Nat.mod_lt _ (Int.natAbs_pos.2 hb)

/-- The remainder has the sign of the dividend. -/
theorem tmod_mul_self_nonneg (a b : Int) : 0 ≤ a.tmod b * a := by
  rcases le_total 0 a with ha | ha
  · exact mul_nonneg (Int.tmod_nonneg b ha) ha
  · have hneg : 0 ≤ (-a).tmod b := Int.tmod_nonneg b (neg_nonneg.2 ha)
    rw [Int.neg_tmod, neg_nonneg] at hneg
    exact mul_nonneg_of_nonpos_of_nonpos hneg ha

/-! ## Three-register instructions -/

section Arith3

variable {f : Word → Word → Except FaultCause Word} {a b : Reg} {s : State}

/-- A three-register instruction that has a value writes it to its third register, and changes
nothing else but the program counter. -/
theorem arith3_of_ok {v : Word} (h : f (s.x.get a) (s.x.get b) = .ok v) (c : Reg) :
    s.arith3 f a b c = .next { s with x := s.x.set c v, pc := s.pc + 4 } := by
  rw [State.arith3, State.reg, State.reg, h]
  rfl

/-- A three-register instruction that has no value raises its fault. -/
theorem arith3_of_error {e : FaultCause} (h : f (s.x.get a) (s.x.get b) = .error e) (c : Reg) :
    s.arith3 f a b c = .next (s.raise s.pc e) := by
  rw [State.arith3, State.reg, State.reg, h]
  rfl

end Arith3

/-- Settles O28: each of the three is the operation on words, whose two readings are the exact
result modulo `2 ^ 64`. -/
theorem addSubMulKeepLow64Bits : Obligations.AddSubMulKeepLow64Bits := by
  unfold Obligations.AddSubMulKeepLow64Bits
  intro a b c s
  exact ⟨⟨_, arith3_of_ok (addWord_eq ..) c, BitVec.toNat_add .., BitVec.toInt_add ..⟩,
    ⟨_, arith3_of_ok (subWord_eq ..) c, toNat_sub_emod .., BitVec.toInt_sub⟩,
    ⟨_, arith3_of_ok (mulWord_eq ..) c, BitVec.toNat_mul .., BitVec.toInt_mul ..⟩⟩

/-- Settles O29: the remainder is that of the division toward zero. -/
theorem divRoundsTowardZero : Obligations.DivRoundsTowardZero := by
  unfold Obligations.DivRoundsTowardZero
  intro a b c s hb hover
  refine ⟨_, (s.x.get a).toInt.tmod (s.x.get b).toInt,
    arith3_of_ok (divWord_eq_sdiv hb hover) c, ?_, abs_tmod_lt _ hb, tmod_mul_self_nonneg ..⟩
  rw [toInt_sdiv_of_no_overflow hover, Int.tdiv_mul_add_tmod]

/-- Settles O30: DIV's value is refused for the one cause or the other, and the fault is raised at
the instruction's own address. -/
theorem divFaults : Obligations.DivFaults := by
  unfold Obligations.DivFaults
  refine fun a b c s => ⟨fun hb => ?_, fun ha hb => ?_⟩
  · have hzero : sint (s.x.get b) = 0 := by rw [hb]; decide
    exact arith3_of_error (divWord_zero _ hzero) c
  · exact arith3_of_error (divWord_overflow ha hb) c

/-! ## NOT, the bitwise instructions and CMP -/

/-- NOT writes the complement of its register and moves the program counter. -/
theorem exec_not (a : Reg) (s : State) :
    exec (.not a) s = .next { s with x := s.x.set a (~~~(s.x.get a)), pc := s.pc + 2 } := by
  rw [← notWord_eq]
  rfl

/-- Settles O31: the complement bit by bit and in the signed reading. -/
theorem notComplements : Obligations.NotComplements := by
  unfold Obligations.NotComplements
  refine fun a s => ⟨_, exec_not a s, fun j hj => ?_, toInt_not_word _⟩
  rw [BitVec.getLsbD_not, decide_eq_true hj, Bool.true_and]

/-- Settles O32: each writes `logic2` of its word operation, which acts bit by bit. -/
theorem logicIsBitwise : Obligations.LogicIsBitwise := by
  unfold Obligations.LogicIsBitwise
  exact fun _ _ _ => ⟨⟨_, rfl, fun _ => BitVec.getLsbD_and⟩, ⟨_, rfl, fun _ => BitVec.getLsbD_or⟩,
    ⟨_, rfl, fun _ => BitVec.getLsbD_xor⟩⟩

/-- Settles O33: the latch takes what the registers hold. -/
theorem cmpLatchesValues : Obligations.CmpLatchesValues := by
  unfold Obligations.CmpLatchesValues
  exact fun _ _ _ => rfl

end Sys2Proof.Machine
end

section
/-! PROOF. JMP, RET and HLT: the Call Stack, its two faults, and the way there and back
(42_control_transfer.md R92 to R95; 10_state.md R20). -/

namespace Sys2Proof.Machine

/-! ## Push and Pop, one rule per case -/

theorem push_of_room {s : State} (h : ∀ n, s.cfg.callDepthMax = some n → s.cs.length ≠ n)
    (v : Word) : s.push v = .ok { s with cs := s.cs ++ [v] } := by
  rcases push_cases s v with ⟨hp, -⟩ | ⟨n, hn, hl, -⟩
  · exact hp
  · exact absurd hl (h n hn)

theorem push_of_full {s : State} {n : Nat} (hn : s.cfg.callDepthMax = some n)
    (hl : s.cs.length = n) (v : Word) : s.push v = .error (.callStackOverflow n) := by
  rcases push_cases s v with ⟨-, hroom⟩ | ⟨k, hk, -, hp⟩
  · exact absurd hl (hroom n hn)
  · cases hn.symm.trans hk
    exact hp

theorem pop_of_top {s : State} {l : List Word} {v : Word} (h : s.cs = l ++ [v]) :
    s.pop = .ok (v, { s with cs := l }) := by
  simp [State.pop, h]

theorem pop_of_empty {s : State} (h : s.cs = []) : s.pop = .error .stackUnderflow := by
  simp [State.pop, h]

/-! ## The instructions -/

/-- Settles O34: JMP's push finds room, so its state goes on to the target. -/
theorem jumpPushesReturnAddress : Obligations.JumpPushesReturnAddress := by
  unfold Obligations.JumpPushesReturnAddress
  intro t s hroom
  have hpush := push_of_room (s := s.advance 9) hroom (s.advance 9).pc
  show execJmp t s = _
  rw [execJmp, hpush]
  rfl

/-- Settles O35: RET's pop answers the top entry, which it goes to. -/
theorem returnPopsTheTop : Obligations.ReturnPopsTheTop := by
  unfold Obligations.ReturnPopsTheTop
  intro l v s hcs
  have hpop := pop_of_top (s := s.advance 1) hcs
  show execRet s = _
  rw [execRet, hpop]
  rfl

/-- Settles O36: the push and the pop are refused, and the fault is raised at the instruction's own
address. -/
theorem stackFaults : Obligations.StackFaults := by
  unfold Obligations.StackFaults
  constructor
  · intro t n s hn hl
    have hpush := push_of_full (s := s.advance 9) hn hl (s.advance 9).pc
    show execJmp t s = _
    rw [execJmp, hpush]
    rfl
  · intro s hcs
    have hpop := pop_of_empty (s := s.advance 1) hcs
    show execRet s = _
    rw [execRet, hpop]
    rfl

/-- Settles O38: HLT has one outcome, with no check. -/
theorem hltHalts : Obligations.HltHalts := by
  unfold Obligations.HltHalts
  exact fun _ => rfl

/-! ## There and back -/

/-- Where the byte of RET stands at the program counter, the step goes to the top entry of the Call
Stack and removes it (R93). -/
theorem step_ret {s : State} {l : List Word} {v : Word} (hrun : s.status = .running)
    (hm : s.cfg.opcodeMap.Injective) (hpc : s.pc.toNat < s.mem.len)
    (hb : s.mem.byte s.pc.toNat = s.cfg.opcodeMap.byteOf .ret) (hcs : s.cs = l ++ [v]) :
    step s = .next { s.beginStep with cs := l, pc := v } :=
  (step_stored (i := .ret) hrun hm rfl hpc (congrArg (· :: []) hb)).trans
    (returnPopsTheTop l v s.beginStep hcs)

/-- Settles O37: the JMP's step pushes the address after it, which the RET at its target pops; neither
step writes anything else of the unit. -/
theorem jumpThenReturnRestores : Obligations.JumpThenReturnRestores := by
  unfold Obligations.JumpThenReturnRestores
  intro s t hrun hm hlen hjmp htarget hret hroom
  have hcall : step s = .next { s.beginStep with cs := s.cs ++ [s.pc + 9], pc := t } :=
    (step_stored (i := .jmp t) hrun hm rfl hlen hjmp).trans
      (jumpPushesReturnAddress t s.beginStep hroom)
  have hback := step_ret (s := { s.beginStep with cs := s.cs ++ [s.pc + 9], pc := t })
    hrun hm htarget hret rfl
  rw [run_succ hcall, run_succ hback, run_zero]
  rfl

end Sys2Proof.Machine
end

section
/-! PROOF. INT and CPUID: the callback within its limits, the signal of an index with no entry, and
the reserved opcode (43_system.md R98 to R100). -/

namespace Sys2Proof.Machine

/-! ## The callback's writes, one rule per case -/

theorem applyCallback_of_admissible {s : State} {v : HostView} (h : v.Admissible s.cfg) :
    s.applyCallback v = { s.withView v with draws := s.draws + 1 } := by
  rcases applyCallback_cases s v with ⟨-, he⟩ | ⟨hn, -⟩
  · exact he
  · exact absurd h hn

theorem applyCallback_of_not_admissible {s : State} {v : HostView} (h : ¬ v.Admissible s.cfg) :
    s.applyCallback v = { s with draws := s.draws + 1 } := by
  rcases applyCallback_cases s v with ⟨ha, -⟩ | ⟨-, he⟩
  · exact absurd ha h
  · exact he

/-- Whatever the callback leaves, a state within the limits of R99 stays within them: a view outside
is not taken over. -/
theorem applyCallback_view_admissible {s : State} (v : HostView) (h : s.view.Admissible s.cfg) :
    (s.applyCallback v).view.Admissible s.cfg := by
  rcases applyCallback_cases s v with ⟨hv, he⟩ | ⟨-, he⟩ <;> rw [he]
  · exact hv
  · exact h

/-! ## The instructions -/

/-- INT with an entry hands the callback the state past the instruction (R98). -/
theorem exec_int_of_handler {i : Byte} {h : Handler} {s : State} (hi : s.handler i = some h) :
    exec (.int i) s = .next ((s.advance 2).invoke h i) := by
  show execInt i s = _
  rw [execInt, hi]

/-- INT with no entry signals the index past the instruction (R98). -/
theorem exec_int_of_no_handler {i : Byte} {s : State} (hi : s.handler i = none) :
    exec (.int i) s = .next ((s.advance 2).signal (.unhandledInterrupt i)) := by
  show execInt i s = _
  rw [execInt, hi]

/-- Settles O40: the view the callback leaves is taken over or dropped as a whole, and neither
touches what R99 keeps from it. -/
theorem intRunsTheCallback : Obligations.IntRunsTheCallback := by
  unfold Obligations.IntRunsTheCallback
  rintro i h v s hi rfl
  refine ⟨(s.advance 2).invoke h i, exec_int_of_handler hi, fun hv => ?taken, fun hv => ?dropped,
    invoke_fr _ _ _, invoke_cfg _ _ _, invoke_result _ _ _, invoke_signals _ _ _, fun hs => ?within⟩
  case taken => exact applyCallback_of_admissible (s := s.advance 2) hv
  case dropped => exact applyCallback_of_not_admissible (s := s.advance 2) hv
  case within => exact applyCallback_view_admissible (s := s.advance 2) _ hs

/-- Settles O39: with no entry, INT only moves on and signals. -/
theorem intUnregisteredSignals : Obligations.IntUnregisteredSignals := by
  unfold Obligations.IntUnregisteredSignals
  exact fun _ _ hi => exec_int_of_no_handler hi

/-- Settles O41: CPUID has no outcome but its fault, which is raised at its own address. -/
theorem cpuidRaisesInvalidOpcode : Obligations.CpuidRaisesInvalidOpcode := by
  unfold Obligations.CpuidRaisesInvalidOpcode
  intro s
  exact settle_error s (.invalidOpcode (s.cfg.opcodeMap.byteOf .cpuid))

end Sys2Proof.Machine
end

section
/-! PROOF. What a fault leaves and what a registration leaves (60_exceptions.md R104, R105, R110). -/

namespace Sys2Proof.Machine

/-! ## Taking a fault -/

/-- The outcome after an instruction: the one the step began with, unless it faulted. -/
theorem Effect.result {i : Instr} {s t : State} (h : Effect s i t) :
    t.result = s.result ∨ ∃ c, t = s.raise s.pc c := by
  cases h with
  | fault c _ _ => exact .inr ⟨c, rfl⟩
  | callback n g _ => exact .inl (by simp)
  | nop | writeReg | store | compare | call | ret | halt | unhandled => exact .inl rfl

/-- A faulted step is the fault action on the state the step began in, whether the bytes or the
instruction raised the fault (R104). -/
theorem eq_raise_of_step_faulted {s t : State} {c : FaultCode} (h : step s = .next t)
    (hres : t.result = some (.faulted c)) :
    s.status = .running ∧ ∃ f : FaultCause, f.code = c ∧ t = s.beginStep.raise s.pc f := by
  rcases step_cases h with ⟨-, rfl⟩ | ⟨-, -, rfl⟩ | ⟨hrun, -, i, -, he⟩ | ⟨hrun, -, e, -, rfl⟩
  · simp at hres
  · simp at hres
  · rcases (effect_of_exec he).result with hkept | ⟨f, rfl⟩
    · simp [hkept] at hres
    · exact ⟨hrun, f, by simpa using hres, rfl⟩
  · exact ⟨hrun, e.cause s.pc.toNat, by simpa using hres, rfl⟩

/-- Settles O11: a faulted step is a fault action, which writes only what R104 names. -/
theorem faultsArePrecise : Obligations.FaultsArePrecise := by
  unfold Obligations.FaultsArePrecise
  intro s t c h hres
  obtain ⟨hrun, f, rfl, rfl⟩ := eq_raise_of_step_faulted h hres
  exact ⟨hrun, f, rfl, rfl⟩

/-! ## Registering a callback -/

/-- The entry registered is read back, and every other index keeps its entry (R110). -/
theorem handler_registerInterrupt (s : State) (i j : Byte) (h : Handler) :
    (s.registerInterrupt i h).handler j = if j = i then some h else s.handler j := by
  simp only [State.handler, registerInterrupt_it, sparseFind_put, BitVec.toNat_inj]

/-- A second registration at one index replaces the first (R110). -/
theorem registerInterrupt_registerInterrupt (s : State) (i : Byte) (g h : Handler) :
    (s.registerInterrupt i g).registerInterrupt i h = s.registerInterrupt i h := by
  simp only [State.registerInterrupt, sparsePut_put]

/-- Settles O60: the entry read back, the earlier registration replaced, the table alone written. -/
theorem lastRegistrationWins : Obligations.LastRegistrationWins := by
  unfold Obligations.LastRegistrationWins
  exact fun i h g s => ⟨fun j => handler_registerInterrupt s i j h,
    registerInterrupt_registerInterrupt s i g h, sparsePut i.toNat h s.it, rfl⟩

end Sys2Proof.Machine
end

section
/-! PROOF. The state after Construct and after the host's Reset, a program appended to the
constructed machine, and the step of a halted one (20_memory.md R38; 70_reset_and_hazards.md R119 to
R123). -/

namespace Sys2Proof.Machine

/-! ## Construct and Reset -/

/-- Every register of a cleared register file reads 0 (R119). -/
theorem get_clearedRegFile (r : Reg) : (Vector.replicate 16 0 : RegFile).get r = 0 := by
  rw [Vector.get_eq_getElem, Vector.getElem_replicate]

/-- The empty Memory lists no byte, so it is in canonical form (assumption log 11). -/
theorem reset_mem_wf : State.reset.mem.wf := ⟨.nil, nofun⟩

/-- The constructed machine's parameters are ones 00_scope.md R7 admits. -/
theorem reset_configWf : ConfigWf State.reset.cfg :=
  ⟨default_injective, Nat.sub_one_lt (by decide)⟩

/-- Settles O56: each component is read off, the registers through the cleared register file. -/
theorem constructedState : Obligations.ConstructedState := by
  unfold Obligations.ConstructedState
  exact ⟨rfl, get_clearedRegFile, rfl, rfl, rfl, rfl, rfl, rfl, fun _ => rfl⟩

/-- Settles O50: the parameters are admissible, and Memory, stack, table and fault record are
empty. -/
theorem resetMeetsInvariant : Obligations.ResetMeetsInvariant := by
  unfold Obligations.ResetMeetsInvariant
  exact { cfg := reset_configWf, mem := reset_mem_wf, memLen := Nat.zero_le _,
          depth := fun n _ => Nat.zero_le n, table := ⟨.nil, nofun⟩, running := fun _ => rfl,
          record := nofun }

/-- Settles O57: six components are set, and Memory, the table and the parameters are kept. -/
theorem hostResetRestores : Obligations.HostResetRestores := by
  unfold Obligations.HostResetRestores
  intro s
  have hcl := hostReset_cl s
  have hx : ∀ r : Reg, s.hostReset.x.get r = 0 := fun r => by
    rw [hostReset_x, get_clearedRegFile]
  exact ⟨hostReset_pc s, hx, hostReset_cs s, hostReset_status s, congrArg CmpLatch.a hcl,
    congrArg CmpLatch.b hcl, hostReset_fr s, hostReset_mem s, hostReset_it s, hostReset_cfg s⟩

/-! ## Appending a program -/

/-- Appending a byte adds it behind the bytes that Memory holds (20_memory.md R38). -/
theorem bytes_append (m : Memory) (b : Byte) :
    (m.append b).bytes 0 (m.append b).len = m.bytes 0 m.len ++ [b] := by
  have hkept : (m.append b).bytes 0 m.len = m.bytes 0 m.len :=
    bytes_congr fun i hi => by rw [byte_append, if_neg (by omega)]
  rw [append_len, bytes_add, hkept, bytes_succ, bytes_zero, byte_append, if_pos (Nat.zero_add _)]

theorem foldl_append_len (bs : List Byte) (m : Memory) :
    (bs.foldl Memory.append m).len = m.len + bs.length := by
  induction bs generalizing m with
  | nil => rfl
  | cons b bs ih => rw [List.foldl_cons, ih, append_len, List.length_cons]; omega

/-- Bytes appended one by one stand, in order, behind those that Memory held. -/
theorem bytes_foldl_append (bs : List Byte) (m : Memory) :
    (bs.foldl Memory.append m).bytes 0 (bs.foldl Memory.append m).len = m.bytes 0 m.len ++ bs := by
  induction bs generalizing m with
  | nil => rw [List.foldl_nil, List.append_nil]
  | cons b bs ih => rw [List.foldl_cons, ih, bytes_append, List.append_assoc, List.singleton_append]

theorem foldl_append_wf (bs : List Byte) {m : Memory} (h : m.wf) :
    (bs.foldl Memory.append m).wf := by
  induction bs generalizing m with
  | nil => exact h
  | cons b bs ih => exact ih (append_wf h b)

/-- In the loading phase, with room for all of a program's bytes, the host appends them all and
writes nothing but Memory (20_memory.md R38; 70_reset_and_hazards.md R122). -/
theorem State.appendAll_of_room {s : State} {bs : List Byte} (hl : s.loading = true)
    (hroom : s.mem.len + bs.length ≤ s.cfg.memMax) :
    s.appendAll bs = some { s with mem := bs.foldl Memory.append s.mem } := by
  induction bs generalizing s with
  | nil => rfl
  | cons b bs ih =>
    rw [List.length_cons] at hroom
    have hrest : (s.mem.append b).len + bs.length ≤ s.cfg.memMax := by rw [append_len]; omega
    rw [State.appendAll, State.append_of_room hl (by omega)]
    exact ih hl hrest

/-- Settles O59: the constructed machine is in the loading phase with an empty Memory, so all the
bytes are appended and stand from address 0. -/
theorem appendedProgramStandsAtZero : Obligations.AppendedProgramStandsAtZero := by
  unfold Obligations.AppendedProgramStandsAtZero
  intro bs hbs
  have hroom : State.reset.mem.len + bs.length ≤ State.reset.cfg.memMax :=
    (Nat.zero_add bs.length).le.trans hbs
  exact ⟨bs.foldl Memory.append State.reset.mem, State.appendAll_of_room rfl hroom,
    (foldl_append_len bs _).trans (Nat.zero_add _), bytes_foldl_append bs _,
    foldl_append_wf bs reset_mem_wf⟩

/-! ## The step of a halted machine -/

/-- Settles O8: the halted step returns `notRunning`, which writes the model's own fields alone. -/
theorem haltedStepChangesNothing : Obligations.HaltedStepChangesNothing := by
  unfold Obligations.HaltedStepChangesNothing
  exact fun s hs => step_halted hs

end Sys2Proof.Machine
end

section
/-! PROOF. Words written out from the spec: each is an instruction's encoding under the default map,
or is refused by the rule it breaks (30_encoding.md R50 to R54, R60). -/

namespace Sys2Proof

/-- The bytes of a well-formed instruction's encoding under the default map decode to it, and none
are left over. -/
theorem decode_default_of_encode_eq {i : Instr} {bs : List Byte} (hw : i.wellFormed = true)
    (hbs : encode OpcodeMap.default i = bs) : decode OpcodeMap.default bs = .ok (i, []) := by
  rw [← hbs, ← List.append_nil (encode _ i)]
  exact decode_encode default_injective hw []

/-- Behind an opcode's own byte, decoding is refused as the operands are. -/
theorem decode_of_operands_error {m : OpcodeMap} (hm : m.Injective) {k : Opcode} {bs : List Byte}
    {e : DecodeError} (he : decodeOperands k { off := 1, rest := bs } = .error e) :
    decode m (m.byteOf k :: bs) = .error e := by
  simp only [decode, lookup_byteOf hm, he]

/-- A byte that the map gives to no instruction is refused, whatever follows it
(30_encoding.md R52). -/
theorem decode_unassigned {m : OpcodeMap} {op : Byte} (hop : ∀ k, m.byteOf k ≠ op)
    (bs : List Byte) : decode m (op :: bs) = .error (.invalidOpcode op) := by
  simp only [decode, lookup_eq_none.2 hop]

/-- Settles O4: nine of the words are encodings, which decode to their instructions; the others are
an unassigned opcode byte, a LOAD8 of register 255, a Move whose destination kind is none, and an
ADD cut before its third register. -/
theorem specWordsDecode : Obligations.SpecWordsDecode := by
  unfold Obligations.SpecWordsDecode
  have hunassigned : ∀ k, OpcodeMap.default.byteOf k ≠ 0x18 := by
    intro k; cases k <;> decide
  have hreg : decodeOperands .load8 { off := 1, rest := [0xFF] } =
      .error (.registerIndexOutOfRange 0xFF) :=
    decodeOperands_beginsWithRegs .load8 1 [] 0xFF [] (by decide) nofun (by decide)
  have hflags : decodeOperands .mov { off := 1, rest := [0xA1, 0x01, 0x02] } =
      .error (.illegalMoveOperand 0xA1) :=
    decodeMov_illegalFlags (by decide) 1 [0x01, 0x02]
  have hcut : decodeOperands .add { off := 1, rest := [0x00, 0x01] } = .error (.truncated 3 1) :=
    decodeOperands_refusesCut (i := .add 0 1 2) rfl 1 2 3 1 (by decide) (by decide) (by decide)
  exact ⟨decode_default_of_encode_eq rfl rfl, decode_default_of_encode_eq rfl rfl,
    decode_default_of_encode_eq rfl rfl, decode_default_of_encode_eq rfl rfl,
    decode_default_of_encode_eq rfl rfl, decode_default_of_encode_eq rfl rfl,
    decode_default_of_encode_eq rfl rfl, decode_default_of_encode_eq rfl rfl,
    decode_default_of_encode_eq rfl rfl, decode_unassigned hunassigned [],
    decode_of_operands_error default_injective hreg,
    decode_of_operands_error default_injective hflags,
    decode_of_operands_error default_injective hcut⟩

end Sys2Proof
end
